-- ==== Sys2Proof/Word.lean ====
section
/-! DEFINITION. The word types of the engine (spec/00_scope.md R9 to R12, R29 to R31). Every value is unsigned. -/

namespace Sys2Proof

/-- A byte: a general register, a timer, one memory cell, an 8-bit immediate (R9, R21, R33). -/
abbrev Byte := BitVec 8

/-- A 16-bit value: the pc, I, a stack entry, an instruction word (R10, R11, R12). -/
abbrev Word := BitVec 16

/-- A 4-bit field: a register index x or y, or the count n (R131). -/
abbrev Nibble := BitVec 4

/-- A 12-bit address field nnn (R131). -/
abbrev Addr12 := BitVec 12

end Sys2Proof
end

