-- ==== Sys2Proof/Syntax.lean ====
section
/-! DEFINITION. The 35 instructions, one constructor per row of spec/opcode_table.json, in the order of the opcode map
(spec/30_encoding.md R138). A constructor holds every bit of its word that its row does not fix, the unexamined ones too
(x of CLS and RET, R136; n of SE_REG and SNE_REG, R137), so that a word is recovered from its instruction. -/

namespace Sys2Proof

inductive Instr where
  /-- CLS 00E0, x not examined (R294) -/
  | cls (x : Nibble)
  /-- RET 00EE, x not examined (R232) -/
  | ret (x : Nibble)
  /-- SYS 0NNN, nn neither 0xE0 nor 0xEE (R231) -/
  | sys (nnn : Addr12)
  /-- JP 1NNN (R233) -/
  | jp (nnn : Addr12)
  /-- CALL 2NNN (R234) -/
  | call (nnn : Addr12)
  /-- SE_IMM 3XNN (R235) -/
  | seImm (x : Nibble) (nn : Byte)
  /-- SNE_IMM 4XNN (R236) -/
  | sneImm (x : Nibble) (nn : Byte)
  /-- SE_REG 5XYN, n ignored (R237) -/
  | seReg (x y n : Nibble)
  /-- LD_IMM 6XNN (R202) -/
  | ldImm (x : Nibble) (nn : Byte)
  /-- ADD_IMM 7XNN (R203) -/
  | addImm (x : Nibble) (nn : Byte)
  /-- LD_REG 8XY0 (R204) -/
  | ldReg (x y : Nibble)
  /-- OR 8XY1 (R205) -/
  | orReg (x y : Nibble)
  /-- AND 8XY2 (R206) -/
  | andReg (x y : Nibble)
  /-- XOR 8XY3 (R207) -/
  | xorReg (x y : Nibble)
  /-- ADD_REG 8XY4 (R208) -/
  | addReg (x y : Nibble)
  /-- SUB 8XY5 (R209) -/
  | sub (x y : Nibble)
  /-- SHR 8XY6 (R211) -/
  | shr (x y : Nibble)
  /-- SUBN 8XY7 (R210) -/
  | subn (x y : Nibble)
  /-- SHL 8XYE (R212) -/
  | shl (x y : Nibble)
  /-- SNE_REG 9XYN, n ignored (R239) -/
  | sneReg (x y n : Nibble)
  /-- LD_I ANNN (R261) -/
  | ldI (nnn : Addr12)
  /-- JP_OFF BNNN (R238) -/
  | jpOff (nnn : Addr12)
  /-- RND CXNN (R213) -/
  | rnd (x : Nibble) (nn : Byte)
  /-- DRW DXYN (R295) -/
  | drw (x y n : Nibble)
  /-- SKP EX9E (R311) -/
  | skp (x : Nibble)
  /-- SKNP EXA1 (R312) -/
  | sknp (x : Nibble)
  /-- LD_VX_DT FX07 (R313) -/
  | ldVxDt (x : Nibble)
  /-- LD_VX_K FX0A (R316) -/
  | ldVxK (x : Nibble)
  /-- LD_DT_VX FX15 (R314) -/
  | ldDtVx (x : Nibble)
  /-- LD_ST_VX FX18 (R315) -/
  | ldStVx (x : Nibble)
  /-- ADD_I FX1E (R262) -/
  | addI (x : Nibble)
  /-- LD_F FX29 (R263) -/
  | ldF (x : Nibble)
  /-- LD_B FX33 (R264) -/
  | ldB (x : Nibble)
  /-- LD_MEM_VX FX55 (R265) -/
  | ldMemVx (x : Nibble)
  /-- LD_VX_MEM FX65 (R266) -/
  | ldVxMem (x : Nibble)
  deriving DecidableEq, Repr

end Sys2Proof
end

