-- ==== Sys2Proof/WellFormed.lean ====
section
/-! DEFINITION. Which terms of Instr stand for a word. The fields have their widths by type (R131). One check is left:
the low byte of SYS is neither that of CLS nor that of RET, which take priority (spec/30_encoding.md R140, R143). -/

namespace Sys2Proof

/-- The low byte nn of a 12-bit field nnn (R131). -/
def lowByte (nnn : Addr12) : Byte := nnn.extractLsb' 0 8

def wellFormed : Instr → Bool
  | .sys nnn => decide (lowByte nnn ≠ 0xE0#8) && decide (lowByte nnn ≠ 0xEE#8)
  | .cls _ | .ret _ => true
  | .jp _ | .call _ | .ldI _ | .jpOff _ => true
  | .seImm _ _ | .sneImm _ _ | .ldImm _ _ | .addImm _ _ | .rnd _ _ => true
  | .seReg _ _ _ | .sneReg _ _ _ | .drw _ _ _ => true
  | .ldReg _ _ | .orReg _ _ | .andReg _ _ | .xorReg _ _ | .addReg _ _ => true
  | .sub _ _ | .shr _ _ | .subn _ _ | .shl _ _ => true
  | .skp _ | .sknp _ | .ldVxDt _ | .ldVxK _ | .ldDtVx _ | .ldStVx _ => true
  | .addI _ | .ldF _ | .ldB _ | .ldMemVx _ | .ldVxMem _ => true

end Sys2Proof
end

