-- ==== Sys2Proof/Decode.lean ====
section
/-! DEFINITION. The decoder and, after it, the encoder (spec/30_encoding.md, spec/opcode_table.json). The decoder is a pure
function of the word (R132, R144). A word that is none of the 35 instructions is rejected by name; what the engine does
with such a word (an event and nothing else, R178) is in Machine/Tick.lean. -/

namespace Sys2Proof

/-- type = w[15:12] (R131, R132). -/
def fieldType (w : Word) : Nibble := w.extractLsb' 12 4

/-- x = w[11:8] (R131, R132). -/
def fieldX (w : Word) : Nibble := w.extractLsb' 8 4

/-- y = w[7:4] (R131, R132). -/
def fieldY (w : Word) : Nibble := w.extractLsb' 4 4

/-- n = w[3:0] (R131, R132). -/
def fieldN (w : Word) : Nibble := w.extractLsb' 0 4

/-- nn = w[7:0] (R131, R132). -/
def fieldNN (w : Word) : Byte := w.extractLsb' 0 8

/-- nnn = w[11:0] (R131, R132). -/
def fieldNNN (w : Word) : Addr12 := w.extractLsb' 0 12

/-- Why the decoder gives no instruction. -/
inductive Reject where
  /-- type 0x8 with n in 8..D or F (R139) -/
  | undefinedType8 (w : Word)
  /-- type 0xE with nn neither 0x9E nor 0xA1 (R139) -/
  | undefinedTypeE (w : Word)
  /-- type 0xF with none of the nine defined nn (R139) -/
  | undefinedTypeF (w : Word)
  /-- fewer than the two bytes of a word (R130) -/
  | truncated
  deriving DecidableEq, Repr

/-- Type 0x0 dispatches by nn, CLS and RET first; x is not examined (R136, R143). -/
def decodeType0 (w : Word) : Except Reject Instr :=
  if fieldNN w = 0xE0#8 then .ok (.cls (fieldX w))
  else if fieldNN w = 0xEE#8 then .ok (.ret (fieldX w))
  else .ok (.sys (fieldNNN w))

/-- Type 0x8 dispatches by n (R136). -/
def decodeType8 (w : Word) : Except Reject Instr :=
  match (fieldN w).toNat with
  | 0x0 => .ok (.ldReg (fieldX w) (fieldY w))
  | 0x1 => .ok (.orReg (fieldX w) (fieldY w))
  | 0x2 => .ok (.andReg (fieldX w) (fieldY w))
  | 0x3 => .ok (.xorReg (fieldX w) (fieldY w))
  | 0x4 => .ok (.addReg (fieldX w) (fieldY w))
  | 0x5 => .ok (.sub (fieldX w) (fieldY w))
  | 0x6 => .ok (.shr (fieldX w) (fieldY w))
  | 0x7 => .ok (.subn (fieldX w) (fieldY w))
  | 0xE => .ok (.shl (fieldX w) (fieldY w))
  | _ => .error (.undefinedType8 w)

/-- Type 0xE dispatches by nn (R136). -/
def decodeTypeE (w : Word) : Except Reject Instr :=
  if fieldNN w = 0x9E#8 then .ok (.skp (fieldX w))
  else if fieldNN w = 0xA1#8 then .ok (.sknp (fieldX w))
  else .error (.undefinedTypeE w)

/-- Type 0xF dispatches by nn (R136). -/
def decodeTypeF (w : Word) : Except Reject Instr :=
  if fieldNN w = 0x07#8 then .ok (.ldVxDt (fieldX w))
  else if fieldNN w = 0x0A#8 then .ok (.ldVxK (fieldX w))
  else if fieldNN w = 0x15#8 then .ok (.ldDtVx (fieldX w))
  else if fieldNN w = 0x18#8 then .ok (.ldStVx (fieldX w))
  else if fieldNN w = 0x1E#8 then .ok (.addI (fieldX w))
  else if fieldNN w = 0x29#8 then .ok (.ldF (fieldX w))
  else if fieldNN w = 0x33#8 then .ok (.ldB (fieldX w))
  else if fieldNN w = 0x55#8 then .ok (.ldMemVx (fieldX w))
  else if fieldNN w = 0x65#8 then .ok (.ldVxMem (fieldX w))
  else .error (.undefinedTypeF w)

/-- Primary dispatch by type (R135). The 4-bit type leaves 0xF for the last arm. -/
def decodeWord (w : Word) : Except Reject Instr :=
  match (fieldType w).toNat with
  | 0x0 => decodeType0 w
  | 0x1 => .ok (.jp (fieldNNN w))
  | 0x2 => .ok (.call (fieldNNN w))
  | 0x3 => .ok (.seImm (fieldX w) (fieldNN w))
  | 0x4 => .ok (.sneImm (fieldX w) (fieldNN w))
  | 0x5 => .ok (.seReg (fieldX w) (fieldY w) (fieldN w))
  | 0x6 => .ok (.ldImm (fieldX w) (fieldNN w))
  | 0x7 => .ok (.addImm (fieldX w) (fieldNN w))
  | 0x8 => decodeType8 w
  | 0x9 => .ok (.sneReg (fieldX w) (fieldY w) (fieldN w))
  | 0xA => .ok (.ldI (fieldNNN w))
  | 0xB => .ok (.jpOff (fieldNNN w))
  | 0xC => .ok (.rnd (fieldX w) (fieldNN w))
  | 0xD => .ok (.drw (fieldX w) (fieldY w) (fieldN w))
  | 0xE => decodeTypeE w
  | _ => decodeTypeF w

/-- The word of two bytes, the high byte first (R101, R174). -/
def wordOfBytes (hi lo : Byte) : Word := hi ++ lo

/-- The high byte of a word, bits 15 to 8, stored at the lower address (R101). -/
def highByteOf (w : Word) : Byte := w.extractLsb' 8 8

/-- The low byte of a word, bits 7 to 0 (R101). -/
def lowByteOf (w : Word) : Byte := w.extractLsb' 0 8

/-- The decoder over bytes: the instruction of the first two and the bytes that follow it, or the reason for a rejection
(R130, R132, R143). -/
def decode : List Byte → Except Reject (Instr × List Byte)
  | hi :: lo :: rest =>
    match decodeWord (wordOfBytes hi lo) with
    | .ok i => .ok (i, rest)
    | .error r => .error r
  | _ => .error .truncated

/-- The words on which the three readings of the secondary dispatch differ (R141): type 0x0 with n in 0, E other than
0x00E0 and 0x00EE; type 0xE with EXYE, y ≠ 9, or EXY1, y ≠ A. -/
def isAmbiguous (w : Word) : Bool :=
  (decide (fieldType w = 0x0#4) && (decide (fieldN w = 0x0#4) || decide (fieldN w = 0xE#4)) &&
      decide (w ≠ 0x00E0#16) && decide (w ≠ 0x00EE#16)) ||
    (decide (fieldType w = 0xE#4) &&
      ((decide (fieldN w = 0xE#4) && decide (fieldY w ≠ 0x9#4)) ||
        (decide (fieldN w = 0x1#4) && decide (fieldY w ≠ 0xA#4))))

/-- An instruction's word from the patterns of the opcode map (R138). -/
def encode : Instr → Word
  | .cls x => 0x0#4 ++ x ++ 0xE0#8
  | .ret x => 0x0#4 ++ x ++ 0xEE#8
  | .sys nnn => 0x0#4 ++ nnn
  | .jp nnn => 0x1#4 ++ nnn
  | .call nnn => 0x2#4 ++ nnn
  | .seImm x nn => 0x3#4 ++ x ++ nn
  | .sneImm x nn => 0x4#4 ++ x ++ nn
  | .seReg x y n => 0x5#4 ++ x ++ y ++ n
  | .ldImm x nn => 0x6#4 ++ x ++ nn
  | .addImm x nn => 0x7#4 ++ x ++ nn
  | .ldReg x y => 0x8#4 ++ x ++ y ++ 0x0#4
  | .orReg x y => 0x8#4 ++ x ++ y ++ 0x1#4
  | .andReg x y => 0x8#4 ++ x ++ y ++ 0x2#4
  | .xorReg x y => 0x8#4 ++ x ++ y ++ 0x3#4
  | .addReg x y => 0x8#4 ++ x ++ y ++ 0x4#4
  | .sub x y => 0x8#4 ++ x ++ y ++ 0x5#4
  | .shr x y => 0x8#4 ++ x ++ y ++ 0x6#4
  | .subn x y => 0x8#4 ++ x ++ y ++ 0x7#4
  | .shl x y => 0x8#4 ++ x ++ y ++ 0xE#4
  | .sneReg x y n => 0x9#4 ++ x ++ y ++ n
  | .ldI nnn => 0xA#4 ++ nnn
  | .jpOff nnn => 0xB#4 ++ nnn
  | .rnd x nn => 0xC#4 ++ x ++ nn
  | .drw x y n => 0xD#4 ++ x ++ y ++ n
  | .skp x => 0xE#4 ++ x ++ 0x9E#8
  | .sknp x => 0xE#4 ++ x ++ 0xA1#8
  | .ldVxDt x => 0xF#4 ++ x ++ 0x07#8
  | .ldVxK x => 0xF#4 ++ x ++ 0x0A#8
  | .ldDtVx x => 0xF#4 ++ x ++ 0x15#8
  | .ldStVx x => 0xF#4 ++ x ++ 0x18#8
  | .addI x => 0xF#4 ++ x ++ 0x1E#8
  | .ldF x => 0xF#4 ++ x ++ 0x29#8
  | .ldB x => 0xF#4 ++ x ++ 0x33#8
  | .ldMemVx x => 0xF#4 ++ x ++ 0x55#8
  | .ldVxMem x => 0xF#4 ++ x ++ 0x65#8

/-- The instruction's bytes as memory holds them, high byte first (R101). -/
def encodeBytes (i : Instr) : List Byte := [highByteOf (encode i), lowByteOf (encode i)]

/-- The table's numbering: bit 0 is the least significant bit of the 16-bit word, and every bit from nbits up is 0. -/
def tableWord (nbits w : Nat) : Word := BitVec.ofNat 16 (w % 2 ^ nbits)

/-- What the decoder reads from a word numbered as spec/opcode_table.json numbers it, laid out as memory holds it. -/
def decodeTableWord (nbits w : Nat) : Option Instr :=
  match decode [highByteOf (tableWord nbits w), lowByteOf (tableWord nbits w)] with
  | .ok (i, _) => some i
  | .error _ => none

end Sys2Proof
end

