-- ==== Sys2Proof/Config.lean ====
section
/-! DEFINITION. What a configuration of the engine fixes at boot (spec/00_scope.md R8 to R28, spec/10_state.md R84,
spec/70_reset_and_hazards.md R391), what the host sends in one outer iteration (R81 to R83), and the free values the spec
leaves open. The values a boot takes by default stand in Machine/Defaults.lean. -/

namespace Sys2Proof

/-- QUIRK_MODE (R24): selects the semantics of SHR, SHL, JP_OFF, LD_MEM_VX and LD_VX_MEM (R181). -/
inductive QuirkMode where
  | legacy
  | modern
  deriving DecidableEq, Repr, Inhabited

/-- BXNN_MODERN_BASE (R25): the base of the modern jump-with-offset. -/
inductive BxnnBase where
  | nnn
  | nn
  deriving DecidableEq, Repr, Inhabited

/-- ODD_PC_POLICY (R26): what a fetch at an odd pc does. -/
inductive OddPcPolicy where
  | fault
  | execute
  deriving DecidableEq, Repr, Inhabited

/-- KEY_WAIT_POLICY (R28): how wait-for-key detects a key. -/
inductive KeyWaitPolicy where
  | edge
  | level
  deriving DecidableEq, Repr, Inhabited

/-- The configuration, sampled once at boot and never written afterwards (R84, R391). -/
structure Config where
  /-- QUIRK_MODE (R24) -/
  quirk : QuirkMode
  /-- INSTR_HZ in Hz, a positive rational (R22) -/
  instrHz : Rat
  /-- STACK_CAPACITY (R14) -/
  stackCapacity : Nat
  /-- FONT_BASE (R17) -/
  fontBase : Nat
  /-- BXNN_MODERN_BASE (R25) -/
  bxnnBase : BxnnBase
  /-- ODD_PC_POLICY (R26) -/
  oddPc : OddPcPolicy
  /-- STRICT_SECONDARY_DECODE (R27) -/
  strictSecondary : Bool
  /-- KEY_WAIT_POLICY (R28) -/
  keyWait : KeyWaitPolicy
  deriving DecidableEq, Repr

/-- MEM_SIZE (R8). -/
def memSize : Nat := 4096

/-- ROM_BASE (R15). -/
def romBase : Nat := 0x200

/-- ROM_MAX = MEM_SIZE − ROM_BASE (R16). -/
def romMax : Nat := 3584

/-- STACK_CEILING (R13). -/
def stackCeiling : Nat := 16

/-- FONT_BYTES (R18). -/
def fontBytes : Nat := 80

/-- The configurations the spec admits: a capacity within the ceiling (R14), a font below the ROM (R17), a positive rate
(R22). -/
def Config.wf (c : Config) : Bool :=
  decide (1 ≤ c.stackCapacity) && decide (c.stackCapacity ≤ stackCeiling) &&
    decide (c.fontBase + fontBytes ≤ romBase) && decide (0 < c.instrHz.num)

/-- What the host supplies for one outer iteration (R81 to R83, R363): the key transitions since the last iteration, in
order; whether quit was asserted; and the wall-clock delta as the fraction deltaNum / deltaDen of a second, which no choice
of the two makes negative (R82). A key is named by 4 bits, so the host never writes the slack slot (R363). -/
structure HostInput where
  keys : List (Nibble × Bool)
  quit : Bool
  deltaNum : Nat
  deltaDen : Nat
  deriving DecidableEq, Repr, Inhabited

/-- The delta in seconds, an exact non-negative rational (R82, R360). A zero denominator stands for a delta of 0. -/
def HostInput.delta (h : HostInput) : Rat := mkRat h.deltaNum h.deltaDen

/-- FREE VALUE: the byte that the n-th execution of RND draws (R86, R213; log entry 4). Nothing constrains it. -/
opaque Config.freeByte : Nat → Byte

/-- FREE VALUE: what the host supplies for the n-th outer iteration once the queue of inputs held in the state is used up
(R82; log entry 5). Nothing constrains it. -/
opaque Config.freeInput : Nat → HostInput

end Sys2Proof
end

