-- ==== Sys2Proof/Machine/Defaults.lean ====
section
/-! DEFINITION. The configuration a boot takes when nothing else is asked for, and the font table. Each is a parameter of the
spec with a decided value (spec/00_scope.md R13 to R28, spec/10_state.md R67), but for the quirk mode, which is OPEN (R24):
its value here is the model's (log entry 1). -/

namespace Sys2Proof.Machine

/-- The quirk mode of State.reset. DESIGN CHOICE (log entry 1): R24 leaves QUIRK_MODE open and gives no default. -/
def bootQuirk : QuirkMode := .legacy

/-- The default configuration: the decided values of R14, R17, R22, R25 to R28 (log entry 2). -/
def bootConfig : Config where
  quirk := bootQuirk
  instrHz := 700
  stackCapacity := 16
  fontBase := 0x050
  bxnnBase := .nnn
  oddPc := .fault
  strictSecondary := false
  keyWait := .edge

/-- FONT_DATA, digits 0 to 7 (R67; log entry 3). -/
def fontLow : List Byte :=
  [0xF0, 0x90, 0x90, 0x90, 0xF0] ++ [0x20, 0x60, 0x20, 0x20, 0x70] ++ [0xF0, 0x10, 0xF0, 0x80, 0xF0] ++
  [0xF0, 0x10, 0xF0, 0x10, 0xF0] ++ [0x90, 0x90, 0xF0, 0x10, 0x10] ++ [0xF0, 0x80, 0xF0, 0x10, 0xF0] ++
  [0xF0, 0x80, 0xF0, 0x90, 0xF0] ++ [0xF0, 0x10, 0x20, 0x40, 0x40]

/-- FONT_DATA, digits 8 to F (R67; log entry 3). -/
def fontHigh : List Byte :=
  [0xF0, 0x90, 0xF0, 0x90, 0xF0] ++ [0xF0, 0x90, 0xF0, 0x10, 0xF0] ++ [0xF0, 0x90, 0xF0, 0x90, 0x90] ++
  [0xE0, 0x90, 0xE0, 0x90, 0xE0] ++ [0xF0, 0x80, 0x80, 0x80, 0xF0] ++ [0xE0, 0x90, 0x90, 0x90, 0xE0] ++
  [0xF0, 0x80, 0xF0, 0x80, 0xF0] ++ [0xF0, 0x80, 0xF0, 0x80, 0x80]

/-- FONT_DATA: the 80 glyph bytes, 5 for each digit, top row first (R18, R66, R67). -/
def fontData : List Byte := fontLow ++ fontHigh

end Sys2Proof.Machine
end

