-- ==== Sys2Proof/Machine/State.lean ====
section
/-! DEFINITION. The state of the engine (spec/10_state.md R50 to R76), the outputs of its ports (R87 to R89), the model's own
bookkeeping of the host's inputs and of the free values, and the state after boot. INVENTORY.md lists every field with its
rule and its reset value. -/

namespace Sys2Proof.Machine

/-- Why `boot` builds no machine (R347). No step of a built machine answers a fault: the faults of a run are states of the
engine, HALTED with a fault record (R342). -/
inductive Fault where
  /-- Raised by `boot` when STACK_CAPACITY is 0 or above STACK_CEILING (R392). Safe: no machine exists. -/
  | stackCeilingExceeded
  /-- Raised by `boot` when the ROM is longer than ROM_MAX (R397). Safe: no machine exists. -/
  | romTooLarge
  deriving DecidableEq, Repr

/-- Why a step has no meaning. No step of this model answers a refusal. -/
inductive Refusal where
  /-- An instruction with no meaning yet, by its mnemonic; raised by no arm of exec. Safe. -/
  | notModelled (mnemonic : String)
  deriving DecidableEq, Repr

/-- The fault causes of a run, in the order of their codes 1 to 7 (R341). -/
inductive Cause where
  | stackOverflow
  | stackUnderflow
  | memoryOutOfRange
  | fetchOutOfRange
  | misalignedFetch
  | keyIndexOutOfRange
  | ambiguousEncoding
  deriving DecidableEq, Repr

/-- The engine state (R70). -/
inductive Engine where
  | running
  | awaitingKey (x : Nibble)
  | halted (cause : Cause)
  deriving DecidableEq, Repr

/-- The fault record once a fault is taken (R74, R342). The info value is held in 16 bits (log entry 9). -/
structure FaultRecord where
  cause : Cause
  addr : Word
  word : Option Word
  info : Option Word
  deriving DecidableEq, Repr

/-- The event UnknownOpcode(address, word) (R89, R178). -/
structure UnknownOpcode where
  addr : Word
  word : Word
  deriving DecidableEq, Repr

/-- Where the clock divider stands (R356): before an outer iteration, inside one, or at the end of the run (R367). -/
inductive Phase where
  | between
  | inside
  | ended
  deriving DecidableEq, Repr

/-- Memory: the bytes that differ from the reset contents (Machine/Ops.lean, `Memory.background`), by rising address. -/
structure Memory where
  cells : List Host.Cell
  deriving DecidableEq, Repr

/-- The 64 × 32 grid, row r of column c at index r then c (R64; the layout is not architectural). -/
abbrev Framebuffer := Vector (Vector Bool 64) 32

/-- The engine's state. -/
structure State where
  /-- the configuration sampled at boot (R84, R391) -/
  cfg : Config
  /-- V0..VF (R51) -/
  v : Vector Byte 16
  /-- I (R56) -/
  iReg : Word
  /-- pc (R54) -/
  pc : Word
  /-- DT (R57) -/
  dt : Byte
  /-- ST (R57) -/
  st : Byte
  /-- the return stack, its top first (R59) -/
  stack : List Word
  /-- mem[0..4095] (R65) -/
  mem : Memory
  /-- key[0..16], slot 16 the slack slot (R63) -/
  key : Vector Bool 17
  /-- fb (R64) -/
  fb : Framebuffer
  /-- the engine state (R70) -/
  engine : Engine
  /-- key_latch[0..15] (R71) -/
  keyLatch : Vector Bool 16
  /-- acc_i in seconds (R72) -/
  accI : Rat
  /-- acc_t in seconds (R72) -/
  accT : Rat
  /-- the fault record, none while empty (R74) -/
  faultRec : Option FaultRecord
  /-- running (R75) -/
  running : Bool
  /-- output: changed of the last instruction tick (R73, R179) -/
  changed : Bool
  /-- output: the UnknownOpcode event of the last instruction tick (R89, R178) -/
  unknownOpcode : Option UnknownOpcode
  /-- output: whether a tick of this iteration presented changed = true (R356 step 5) -/
  frameChanged : Bool
  /-- output: whether the last iteration presented the framebuffer at its end (R87, R356 step 5) -/
  framePort : Bool
  /-- output: the audio gate sampled at the end of the last iteration (R352, R356 step 5) -/
  audioPort : Bool
  /-- the clock divider's place in the outer iteration (R356) -/
  phase : Phase
  /-- the host's coming inputs, one for each outer iteration (R81 to R83; log entry 5) -/
  inputs : List HostInput
  /-- the model's own: how many outer iterations took their input, the argument of Config.freeInput (log entry 5) -/
  iterations : Nat
  /-- the model's own: how many random bytes were drawn, the argument of Config.freeByte (log entry 4) -/
  draws : Nat
  deriving DecidableEq, Repr

/-- The state after a boot with configuration `c`, no ROM bytes loaded and the host's coming inputs `inputs` (R76, R393, R394,
R396, R398, R399). Memory lists nothing: its reset contents, zeros and the font, are what an unlisted address reads as. -/
def State.booted (c : Config) (inputs : List HostInput) : State where
  cfg := c
  v := Vector.replicate 16 0#8
  iReg := 0#16
  pc := 0x200#16
  dt := 0#8
  st := 0#8
  stack := []
  mem := ⟨[]⟩
  key := Vector.replicate 17 false
  fb := Vector.replicate 32 (Vector.replicate 64 false)
  engine := .running
  keyLatch := Vector.replicate 16 false
  accI := 0
  accT := 0
  faultRec := none
  running := true
  changed := false
  unknownOpcode := none
  frameChanged := false
  framePort := false
  audioPort := false
  phase := .between
  inputs := inputs
  iterations := 0
  draws := 0

/-- The engine right after reset: boot is its only reset (R390), with the default configuration and no program loaded. -/
def State.reset : State := State.booted bootConfig []

end Sys2Proof.Machine
end

