-- ==== Sys2Proof/Machine/Ops.lean ====
section
/-! DEFINITION. The named operations over registers, memory, the stack, the framebuffer and the keypad, and taking a fault.
The engine has no return from a fault: HALTED is absorbing (spec/60_exceptions.md R346). -/

namespace Sys2Proof.Machine

/-- What a meaning answers. -/
abbrev Result := Host.Outcome State Fault Refusal

/-! ### Registers (R32, R51) -/

/-- V[x]. -/
def State.reg (s : State) (x : Nibble) : Byte := s.v[x.toNat]'(x.isLt)

/-- V[x] <- b. None of the registers is hardwired (R51). -/
def State.setReg (s : State) (x : Nibble) (b : Byte) : State :=
  { s with v := s.v.set x.toNat b x.isLt }

/-- VF is V[0xF] (R32, R52). -/
def vf : Nibble := 0xF#4

def State.setI (s : State) (a : Word) : State := { s with iReg := a }

def State.setPc (s : State) (a : Word) : State := { s with pc := a }

/-- A taken skip: pc, already a + 2, moves on by 2 more (R240). -/
def State.skipNext (s : State) : State := { s with pc := s.pc + 2#16 }

/-- The address of the instruction being executed: pc was advanced by 2 before dispatch (R175). -/
def State.instrAddr (s : State) : Word := s.pc - 2#16

/-! ### Memory (R65, R100 to R108) -/

/-- What an address that memory does not list reads as: the contents at boot, zeros and the font (R108, R394). -/
def Memory.background (c : Config) (a : Nat) : Byte :=
  if c.fontBase ≤ a ∧ a < c.fontBase + fontBytes then fontData.getD (a - c.fontBase) 0#8 else 0#8

/-- The byte listed at address `a`. -/
def cellAt : List Host.Cell → Nat → Option Byte
  | [], _ => none
  | (k, b) :: rest, a => if k = a then some b else cellAt rest a

/-- MemRead(a, 1). -/
def Memory.read (c : Config) (m : Memory) (a : Nat) : Byte := (cellAt m.cells a).getD (Memory.background c a)

/-- List `b` at `a`, in a list of rising addresses. -/
def insertCell (a : Nat) (b : Byte) : List Host.Cell → List Host.Cell
  | [] => [(a, b)]
  | (k, d) :: rest =>
    if a < k then (a, b) :: (k, d) :: rest
    else if a = k then (a, b) :: rest
    else (k, d) :: insertCell a b rest

/-- List nothing at `a`. -/
def eraseCell (a : Nat) : List Host.Cell → List Host.Cell
  | [] => []
  | (k, d) :: rest => if k = a then rest else (k, d) :: eraseCell a rest

/-- MemWrite(a, 1, b). Writing what an unlisted address reads as takes the entry out. -/
def Memory.write (c : Config) (m : Memory) (a : Nat) (b : Byte) : Memory :=
  if b = Memory.background c a then ⟨eraseCell a m.cells⟩ else ⟨insertCell a b m.cells⟩

/-- The addresses of a list of cells rise strictly. -/
def cellsRise : List Host.Cell → Bool
  | [] => true
  | [_] => true
  | p :: q :: rest => decide (p.1 < q.1) && cellsRise (q :: rest)

/-- Memory's one canonical form: rising addresses within 0..4095, no entry equal to what an unlisted address reads as. -/
def Memory.wf (c : Config) (m : Memory) : Bool :=
  cellsRise m.cells && m.cells.all (fun p => decide (p.1 < memSize) && decide (p.2 ≠ Memory.background c p.1))

/-- MemWrite at `a`, `a` + 1, … of the bytes of a list, in rising order of address (R104). -/
def Memory.writeList (c : Config) (m : Memory) (a : Nat) : List Byte → Memory
  | [] => m
  | b :: rest => Memory.writeList c (Memory.write c m a b) (a + 1) rest

/-- MemRead(a, 1) in the state. -/
def State.readByte (s : State) (a : Nat) : Byte := s.mem.read s.cfg a

/-- The bytes at `a`, `a` + 1, …, `n` of them (R104). -/
def State.readBytes (s : State) (a : Nat) : Nat → List Byte
  | 0 => []
  | n + 1 => s.readByte a :: s.readBytes (a + 1) n

/-- MemWrite of consecutive bytes in the state. -/
def State.writeBytes (s : State) (a : Nat) (bs : List Byte) : State :=
  { s with mem := s.mem.writeList s.cfg a bs }

/-- Whether the `n` bytes from `a` on all lie inside memory; no bytes always do (R106, R295). -/
def inMemory (a n : Nat) : Bool := decide (n = 0) || decide (a + n ≤ memSize)

/-- The first address at or above 4096 that an access from `a` on touches: max(a, 4096) (R106, R341). -/
def firstOutside (a : Word) : Word := BitVec.ofNat 16 (max a.toNat memSize)

/-! ### The return stack (R59 to R62) -/

/-- push(a): none when the stack is at capacity (R60). -/
def State.push (s : State) (a : Word) : Option State :=
  if s.stack.length = s.cfg.stackCapacity then none else some { s with stack := a :: s.stack }

/-- pop(): the top entry and the state without it, none when the stack is empty (R61). -/
def State.pop (s : State) : Option (Word × State) :=
  match s.stack with
  | [] => none
  | a :: rest => some (a, { s with stack := rest })

/-- peek(): the top entry, none when the stack is empty; no instruction uses it (R62). -/
def State.peek (s : State) : Option Word := s.stack.head?

/-! ### The framebuffer (R64, R290 to R293) -/

/-- fb[c, r]; nothing is set outside the grid. -/
def Framebuffer.get (f : Framebuffer) (c r : Nat) : Bool :=
  if h : c < 64 ∧ r < 32 then (f[r]'h.2)[c]'h.1 else false

/-- fb[c, r] <- not fb[c, r], for a cell of the grid. -/
def Framebuffer.flip (f : Framebuffer) (c r : Nat) : Framebuffer :=
  if h : c < 64 ∧ r < 32 then f.set r ((f[r]'h.2).set c (!((f[r]'h.2)[c]'h.1)) h.1) h.2 else f

/-- Every cell false (R294). -/
def Framebuffer.clear : Framebuffer := Vector.replicate 32 (Vector.replicate 64 false)

/-- The framebuffer and whether a collision has been met so far in a draw (R292, R295). -/
structure Canvas where
  fb : Framebuffer
  hit : Bool
  deriving DecidableEq, Repr

/-- One sprite bit at column `c`, row `r`: toggles a cell inside the grid, and collides with a set one (R291, R292). -/
def Canvas.pixel (a : Canvas) (c r : Nat) (bit : Bool) : Canvas :=
  if bit = true ∧ c < 64 ∧ r < 32 then ⟨a.fb.flip c r, a.hit || a.fb.get c r⟩ else a

/-- The first `k` columns of a sprite row, left to right; bit 7 is the leftmost (R290). -/
def Canvas.columns (a : Canvas) (x0 r : Nat) (row : Byte) : Nat → Canvas
  | 0 => a
  | k + 1 => (a.columns x0 r row k).pixel (x0 + k) r (row.getLsbD (7 - k))

/-- The rows of a sprite, top row first, from grid row `r` on (R290, R295). -/
def Canvas.rows (a : Canvas) (x0 r : Nat) : List Byte → Canvas
  | [] => a
  | row :: rest => (a.columns x0 r row 8).rows x0 (r + 1) rest

/-- The framebuffer takes a new value and the tick presents changed = true (R87, R179). -/
def State.present (s : State) (f : Framebuffer) : State :=
  { s with fb := f, changed := true, frameChanged := true }

/-! ### The keypad (R63, R81, R310) -/

/-- key[k] for a key 0x0..0xF. -/
def State.keyDown (s : State) (k : Nibble) : Bool :=
  s.key[k.toNat]'(Nat.lt_trans k.isLt (by decide))

/-- key[0..15], what the latch samples (R71, R316, R318). -/
def State.keysNow (s : State) : Vector Bool 16 := Vector.ofFn (fun k : Fin 16 => s.key[k.val]'(by omega))

/-- The host's key transitions in order; the slack slot 16 is out of their reach (R81, R363). -/
def applyKeys (key : Vector Bool 17) : List (Nibble × Bool) → Vector Bool 17
  | [] => key
  | (k, down) :: rest => applyKeys (key.set k.toNat down (Nat.lt_trans k.isLt (by decide))) rest

/-! ### Outputs and faults -/

/-- What an instruction tick presents before it does anything: changed = false, no event (R172, R178, R179). -/
def State.clearOutputs (s : State) : State := { s with changed := false, unknownOpcode := none }

/-- emit UnknownOpcode(a, w), and nothing else (R178). -/
def State.emitUnknown (s : State) (a w : Word) : State := { s with unknownOpcode := some ⟨a, w⟩ }

/-- Fault entry, shared by every fault (R342): the engine halts with the cause, the record is filled, changed is false.
pc is left as it stands: a for a fetch fault, a + 2 for any other (R182). -/
def State.raise (s : State) (cause : Cause) (addr : Word) (word info : Option Word) : State :=
  { s with engine := .halted cause, faultRec := some ⟨cause, addr, word, info⟩, changed := false }

/-- The entry of a fault raised by instruction `i` while it executes: its address and its word are recorded (R342). -/
def State.execFault (s : State) (cause : Cause) (i : Instr) (info : Option Word) : State :=
  s.raise cause s.instrAddr (some (encode i)) info

end Sys2Proof.Machine
end

