-- ==== Sys2Proof/Machine/Flags.lean ====
section
/-! DEFINITION. Every flag computation of the spec. The only flag is VF (spec/10_state.md R52, R53). -/

namespace Sys2Proof.Machine

/-- A flag as VF holds it: 1 or 0. -/
def flagByte (f : Bool) : Byte := if f then 1#8 else 0#8

/-- The carry of ADD_REG: the unsigned sum exceeds 255 (R208). -/
def carryOut (vx vy : Byte) : Bool := decide (255 < vx.toNat + vy.toNat)

/-- No borrow in minuend − subtrahend: minuend ≥ subtrahend (R209, R210). -/
def noBorrow (minuend subtrahend : Byte) : Bool := decide (subtrahend.toNat ≤ minuend.toNat)

/-- The bit SHR shifts out, bit 0 (R211). -/
def shiftedOutRight (src : Byte) : Bool := src.getLsbD 0

/-- The bit SHL shifts out, bit 7 (R212). -/
def shiftedOutLeft (src : Byte) : Bool := src.getLsbD 7

/-- V[x] takes the result, then VF the flag: with x = 0xF the flag is what stays (R52, R177). -/
def State.setResultFlag (s : State) (x : Nibble) (result : Byte) (flag : Bool) : State :=
  (s.setReg x result).setReg vf (flagByte flag)

end Sys2Proof.Machine
end

