-- ==== Sys2Proof/Machine/Operands.lean ====
section
/-! DEFINITION. Every operand form of the spec (spec/30_encoding.md R133, R134, spec/43_index_memory.md R260): immediates,
the quirk-dependent sources, index-relative addresses, register ranges, digits, glyphs and key indices. -/

namespace Sys2Proof.Machine

/-- zext_16(nnn) (R133). -/
def zextAddr (nnn : Addr12) : Word := nnn.setWidth 16

/-- zext_16 of a byte, for adding a register or nn to a 16-bit value (R133). -/
def zextByte (b : Byte) : Word := b.setWidth 16

/-- The source of SHR and SHL: V[y] in legacy mode, V[x] in modern mode (R211, R212). -/
def State.shiftSource (s : State) (x y : Nibble) : Byte :=
  match s.cfg.quirk with
  | .legacy => s.reg y
  | .modern => s.reg x

/-- x = w[11:8] of a word whose low 12 bits are nnn (R131, R238). -/
def xOfAddr (nnn : Addr12) : Nibble := nnn.extractLsb' 8 4

/-- nn = w[7:0] of a word whose low 12 bits are nnn (R131, R238). -/
def nnOfAddr (nnn : Addr12) : Byte := nnn.extractLsb' 0 8

/-- The target of JP_OFF, not truncated to 12 bits (R238). -/
def State.jumpOffTarget (s : State) (nnn : Addr12) : Word :=
  match s.cfg.quirk with
  | .legacy => zextAddr nnn + zextByte (s.reg 0x0#4)
  | .modern =>
    match s.cfg.bxnnBase with
    | .nnn => zextAddr nnn + zextByte (s.reg (xOfAddr nnn))
    | .nn => zextByte (nnOfAddr nnn) + zextByte (s.reg (xOfAddr nnn))

/-- I after LD_MEM_VX and LD_VX_MEM: advanced by x + 1 in legacy mode, unchanged in modern mode (R265, R266). -/
def State.indexAfter (s : State) (x : Nibble) : Word :=
  match s.cfg.quirk with
  | .legacy => s.iReg + BitVec.ofNat 16 (x.toNat + 1)
  | .modern => s.iReg

/-- V0, V1, …, the first `n` registers (R265). -/
def State.firstRegs (s : State) (n : Nat) : List Byte := s.v.toList.take n

/-- V[k] <- the head of the list, V[k + 1] <- the next, … (R266). -/
def State.loadRegs (s : State) (k : Nat) : List Byte → State
  | [] => s
  | b :: rest => (s.setReg (BitVec.ofNat 4 k) b).loadRegs (k + 1) rest

/-- The three decimal digits of a byte: hundreds, tens, ones (R264). -/
def bcdDigits (b : Byte) : List Byte :=
  [BitVec.ofNat 8 (b.toNat / 100), BitVec.ofNat 8 (b.toNat / 10 % 10), BitVec.ofNat 8 (b.toNat % 10)]

/-- The address of the glyph of a byte's low nibble: FONT_BASE + 5 · (vx & 0xF) (R263). -/
def glyphAddr (c : Config) (vx : Byte) : Word := BitVec.ofNat 16 (c.fontBase + 5 * (vx.toNat % 16))

/-- The key a register value names, none from 0x10 on (R310). -/
def keyIndex (k : Byte) : Option Nibble := if k.toNat < 16 then some (k.setWidth 4) else none

end Sys2Proof.Machine
end

