-- ==== Sys2Proof/Machine/Alu.lean ====
section
/-! DEFINITION. The register and arithmetic instructions (spec/41_register_alu.md). A meaning runs after the fetch, the pc
advance and the decode of R172: pc holds a + 2, and changed is false. Inputs are read from the state the instruction enters
with, before any write (R176). -/

namespace Sys2Proof.Machine

/-- LD_IMM 6XNN (R202). -/
def execLdImm (x : Nibble) (nn : Byte) (s : State) : Result := .next (s.setReg x nn)

/-- ADD_IMM 7XNN, no flag (R203). -/
def execAddImm (x : Nibble) (nn : Byte) (s : State) : Result := .next (s.setReg x (s.reg x + nn))

/-- LD_REG 8XY0 (R204). -/
def execLdReg (x y : Nibble) (s : State) : Result := .next (s.setReg x (s.reg y))

/-- OR 8XY1, VF <- 0 (R205). -/
def execOrReg (x y : Nibble) (s : State) : Result := .next (s.setResultFlag x (s.reg x ||| s.reg y) false)

/-- AND 8XY2, VF <- 0 (R206). -/
def execAndReg (x y : Nibble) (s : State) : Result := .next (s.setResultFlag x (s.reg x &&& s.reg y) false)

/-- XOR 8XY3, VF <- 0 (R207). -/
def execXorReg (x y : Nibble) (s : State) : Result := .next (s.setResultFlag x (s.reg x ^^^ s.reg y) false)

/-- ADD_REG 8XY4, VF <- carry (R208). -/
def execAddReg (x y : Nibble) (s : State) : Result :=
  .next (s.setResultFlag x (s.reg x + s.reg y) (carryOut (s.reg x) (s.reg y)))

/-- SUB 8XY5: V[x] − V[y], VF <- no borrow (R209). -/
def execSub (x y : Nibble) (s : State) : Result :=
  .next (s.setResultFlag x (s.reg x - s.reg y) (noBorrow (s.reg x) (s.reg y)))

/-- SHR 8XY6, VF <- bit 0 of the source (R211). -/
def execShr (x y : Nibble) (s : State) : Result :=
  .next (s.setResultFlag x (s.shiftSource x y >>> 1) (shiftedOutRight (s.shiftSource x y)))

/-- SUBN 8XY7: V[y] − V[x], VF <- no borrow (R210). -/
def execSubn (x y : Nibble) (s : State) : Result :=
  .next (s.setResultFlag x (s.reg y - s.reg x) (noBorrow (s.reg y) (s.reg x)))

/-- SHL 8XYE, VF <- bit 7 of the source (R212). -/
def execShl (x y : Nibble) (s : State) : Result :=
  .next (s.setResultFlag x (s.shiftSource x y <<< 1) (shiftedOutLeft (s.shiftSource x y)))

/-- RND CXNN: a free draw masked by nn; each execution draws once (R86, R213; log entry 4). -/
def execRnd (x : Nibble) (nn : Byte) (s : State) : Result :=
  .next { s.setReg x (Config.freeByte s.draws &&& nn) with draws := s.draws + 1 }

end Sys2Proof.Machine
end

