-- ==== Sys2Proof/Machine/Control.lean ====
section
/-! DEFINITION. The control transfer instructions (spec/42_control_flow.md). On entry pc holds a + 2 (R175). -/

namespace Sys2Proof.Machine

/-- A skip instruction: pc moves on by 2 when its condition holds (R240). -/
def State.skipIf (s : State) (cond : Bool) : State := if cond then s.skipNext else s

/-- SYS 0NNN: the UnknownOpcode event and nothing else (R178, R231). -/
def execSys (nnn : Addr12) (s : State) : Result := .next (s.emitUnknown s.instrAddr (encode (.sys nnn)))

/-- RET 00EE: pc <- pop(), or StackUnderflow (R61, R232). -/
def execRet (x : Nibble) (s : State) : Result :=
  match s.pop with
  | some (t, s') => .next (s'.setPc t)
  | none => .next (s.execFault .stackUnderflow (.ret x) none)

/-- JP 1NNN (R233). -/
def execJp (nnn : Addr12) (s : State) : Result := .next (s.setPc (zextAddr nnn))

/-- CALL 2NNN: push(pc), then pc <- nnn, or StackOverflow with the address not pushed (R60, R234). -/
def execCall (nnn : Addr12) (s : State) : Result :=
  match s.push s.pc with
  | some s' => .next (s'.setPc (zextAddr nnn))
  | none => .next (s.execFault .stackOverflow (.call nnn) (some s.pc))

/-- SE_IMM 3XNN (R235). -/
def execSeImm (x : Nibble) (nn : Byte) (s : State) : Result := .next (s.skipIf (decide (s.reg x = nn)))

/-- SNE_IMM 4XNN (R236). -/
def execSneImm (x : Nibble) (nn : Byte) (s : State) : Result := .next (s.skipIf (decide (s.reg x ≠ nn)))

/-- SE_REG 5XYN, n ignored (R237). -/
def execSeReg (x y _n : Nibble) (s : State) : Result := .next (s.skipIf (decide (s.reg x = s.reg y)))

/-- JP_OFF BNNN (R238). -/
def execJpOff (nnn : Addr12) (s : State) : Result := .next (s.setPc (s.jumpOffTarget nnn))

/-- SNE_REG 9XYN, n ignored (R239). -/
def execSneReg (x y _n : Nibble) (s : State) : Result := .next (s.skipIf (decide (s.reg x ≠ s.reg y)))

end Sys2Proof.Machine
end

