-- ==== Sys2Proof/Machine/IndexMemory.lean ====
section
/-! DEFINITION. The index register and memory instructions (spec/43_index_memory.md). The range of a memory access is checked
before any of its effects (spec/20_memory.md R106). -/

namespace Sys2Proof.Machine

/-- The state `t`, the effect of instruction `i`, when the `n` bytes from I on lie in memory, else MemoryOutOfRange with
max(I, 4096) (R106, R341). -/
def State.withAccess (s : State) (i : Instr) (n : Nat) (t : State) : State :=
  if inMemory s.iReg.toNat n then t else s.execFault .memoryOutOfRange i (some (firstOutside s.iReg))

/-- LD_I ANNN (R261). -/
def execLdI (nnn : Addr12) (s : State) : Result := .next (s.setI (zextAddr nnn))

/-- ADD_I FX1E, modulo 65536, no flag (R262). -/
def execAddI (x : Nibble) (s : State) : Result := .next (s.setI (s.iReg + zextByte (s.reg x)))

/-- LD_F FX29 (R263). -/
def execLdF (x : Nibble) (s : State) : Result := .next (s.setI (glyphAddr s.cfg (s.reg x)))

/-- LD_B FX33: the three decimal digits at I, I + 1, I + 2 (R264). -/
def execLdB (x : Nibble) (s : State) : Result :=
  .next (s.withAccess (.ldB x) 3 (s.writeBytes s.iReg.toNat (bcdDigits (s.reg x))))

/-- LD_MEM_VX FX55: V0..V[x] to memory at I (R265). -/
def execLdMemVx (x : Nibble) (s : State) : Result :=
  .next (s.withAccess (.ldMemVx x) (x.toNat + 1)
    ((s.writeBytes s.iReg.toNat (s.firstRegs (x.toNat + 1))).setI (s.indexAfter x)))

/-- LD_VX_MEM FX65: V0..V[x] from memory at I (R266). -/
def execLdVxMem (x : Nibble) (s : State) : Result :=
  .next (s.withAccess (.ldVxMem x) (x.toNat + 1)
    ((s.loadRegs 0 (s.readBytes s.iReg.toNat (x.toNat + 1))).setI (s.indexAfter x)))

end Sys2Proof.Machine
end

