-- ==== Sys2Proof/Machine/Display.lean ====
section
/-! DEFINITION. The display instructions (spec/44_display.md). Both present changed = true (R179). -/

namespace Sys2Proof.Machine

/-- CLS 00E0, x not examined (R294). -/
def execCls (_x : Nibble) (s : State) : Result := .next (s.present Framebuffer.clear)

/-- The framebuffer and the collision after drawing the `n` rows at I, their corner at column V[x] mod 64, row V[y] mod 32
(R291, R295). -/
def State.drawn (s : State) (x y n : Nibble) : Canvas :=
  Canvas.rows ⟨s.fb, false⟩ ((s.reg x).toNat % 64) ((s.reg y).toNat % 32) (s.readBytes s.iReg.toNat n.toNat)

/-- DRW DXYN: the coordinates are read before VF is written, and VF takes the collision last (R176, R292, R295). -/
def execDrw (x y n : Nibble) (s : State) : Result :=
  .next (s.withAccess (.drw x y n) n.toNat
    ((s.present (s.drawn x y n).fb).setReg vf (flagByte (s.drawn x y n).hit)))

end Sys2Proof.Machine
end

