-- ==== Sys2Proof/Machine/KeypadTimer.lean ====
section
/-! DEFINITION. The keypad and timer instructions, and the instruction tick in AWAITING_KEY (spec/45_keypad_timers.md). -/

namespace Sys2Proof.Machine

/-- SKP EX9E: skips when the key named by V[x] is down; KeyIndexOutOfRange from 0x10 on (R310, R311). -/
def execSkp (x : Nibble) (s : State) : Result :=
  match keyIndex (s.reg x) with
  | some k => .next (s.skipIf (s.keyDown k))
  | none => .next (s.execFault .keyIndexOutOfRange (.skp x) (some (zextByte (s.reg x))))

/-- SKNP EXA1: skips when the key named by V[x] is up; KeyIndexOutOfRange from 0x10 on (R310, R312). -/
def execSknp (x : Nibble) (s : State) : Result :=
  match keyIndex (s.reg x) with
  | some k => .next (s.skipIf (!s.keyDown k))
  | none => .next (s.execFault .keyIndexOutOfRange (.sknp x) (some (zextByte (s.reg x))))

/-- LD_VX_DT FX07 (R313). -/
def execLdVxDt (x : Nibble) (s : State) : Result := .next (s.setReg x s.dt)

/-- LD_DT_VX FX15 (R314). -/
def execLdDtVx (x : Nibble) (s : State) : Result := .next { s with dt := s.reg x }

/-- LD_ST_VX FX18 (R315). -/
def execLdStVx (x : Nibble) (s : State) : Result := .next { s with st := s.reg x }

/-- LD_VX_K FX0A: the latch takes the keypad and the engine waits; the keypad is not tested (R316). -/
def execLdVxK (x : Nibble) (s : State) : Result :=
  .next { s with keyLatch := s.keysNow, engine := .awaitingKey x }

/-- Whether key `k` ends a wait: down now and, under the edge policy, up in the latch (R318). -/
def State.keyQualifies (s : State) (k : Nibble) : Bool :=
  match s.cfg.keyWait with
  | .edge => s.keyDown k && !(s.keyLatch[k.toNat]'(k.isLt))
  | .level => s.keyDown k

/-- The lowest key from `k` on, among `n` keys, that qualifies. -/
def State.lowestFrom (s : State) (k : Nat) : Nat → Option Nibble
  | 0 => none
  | n + 1 => if s.keyQualifies (BitVec.ofNat 4 k) then some (BitVec.ofNat 4 k) else s.lowestFrom (k + 1) n

/-- min(Q), none when no key qualifies (R318). -/
def State.lowestKey (s : State) : Option Nibble := s.lowestFrom 0 16

/-- The instruction tick in AWAITING_KEY(x): nothing is fetched; a qualifying key ends the wait (R317, R318). -/
def State.keyWaitTick (s : State) (x : Nibble) : State :=
  match s.lowestKey with
  | some k => { s.setReg x (k.setWidth 8) with keyLatch := s.keysNow, engine := .running }
  | none => { s with keyLatch := s.keysNow }

end Sys2Proof.Machine
end

