-- ==== Sys2Proof/Machine/Tick.lean ====
section
/-! DEFINITION. The two kinds of tick: the instruction tick (spec/40_execution_cycle.md) and the timer tick
(spec/60_exceptions.md R351). -/

namespace Sys2Proof.Machine

/-- FetchCheck(a): the fault a fetch at `a` meets, alignment first (R173, R344). -/
def fetchCheck (c : Config) (a : Word) : Option Cause :=
  if a.toNat % 2 = 1 ∧ c.oddPc = .fault then some .misalignedFetch
  else if memSize ≤ a.toNat + 1 then some .fetchOutOfRange
  else none

/-- MemRead(a, 2): the byte at `a` is the high byte (R101, R174). -/
def State.fetchWord (s : State) (a : Nat) : Word := wordOfBytes (s.readByte a) (s.readByte (a + 1))

/-- The pc advance, before dispatch (R175). -/
def State.advancePc (s : State) : State := { s with pc := s.pc + 2#16 }

/-- Dispatch(w) with pc already a + 2: an ambiguous word faults under STRICT_SECONDARY_DECODE (R185), an instruction has its
meaning, an undefined word emits its event and nothing else (R178). -/
def State.dispatch (s : State) (w : Word) : Result :=
  if s.cfg.strictSecondary = true ∧ isAmbiguous w = true then
    .next (s.raise .ambiguousEncoding s.instrAddr (some w) (some w))
  else
    match decodeWord w with
    | .ok i => exec i s
    | .error _ => .next (s.emitUnknown s.instrAddr w)

/-- The cycle in RUNNING from its outputs cleared: fetch check, fetch, pc advance, dispatch (R172). A fetch fault leaves pc at
a and records no word (R173, R342). -/
def State.cycle (s : State) : Result :=
  match fetchCheck s.cfg s.pc with
  | some cause => .next (s.raise cause s.pc none (some s.pc))
  | none => s.advancePc.dispatch (s.fetchWord s.pc.toNat)

/-- InstructionTick, by engine state (R171, R183). -/
def State.instructionTick (s : State) : Result :=
  match s.engine with
  | .running => s.clearOutputs.cycle
  | .awaitingKey x => .next (s.clearOutputs.keyWaitTick x)
  | .halted _ => .next s.clearOutputs

/-- One timer's decrement, floored at zero (R351). -/
def countDown (b : Byte) : Byte := if b = 0#8 then 0#8 else b - 1#8

/-- TimerTick: both timers, nothing else (R351). -/
def State.timerTick (s : State) : State := { s with dt := countDown s.dt, st := countDown s.st }

/-- The audio gate: ST > 0 (R88, R352). -/
def State.audioGate (s : State) : Bool := decide (s.st ≠ 0#8)

end Sys2Proof.Machine
end

