-- ==== Sys2Proof/Machine/Clock.lean ====
section
/-! DEFINITION. The dual-rate clock divider as one sequence of events (spec/60_exceptions.md R353 to R362): the start of an
outer iteration with the host's input, an instruction tick, a timer tick, the end of an iteration with its outputs. R362
allows this flattening; Machine/Iteration.lean has the outer iteration as R356 writes it. -/

namespace Sys2Proof.Machine

/-- P_INSTR = 1 / INSTR_HZ in seconds: the reciprocal of the fraction num / den is den / num (R22, R353). -/
def instrPeriod (c : Config) : Rat := Rat.divInt c.instrHz.den c.instrHz.num

/-- P_TIMER = 1/60 second (R23, R353). -/
def timerPeriod : Rat := mkRat 1 60

/-- The engine state is HALTED (R70). -/
def State.isHalted (s : State) : Bool :=
  match s.engine with
  | .halted _ => true
  | .running => false
  | .awaitingKey _ => false

/-- The instruction loop's condition but for HALTED: acc_i ≥ P_INSTR (R354, R357). -/
def State.instrDue (s : State) : Bool := decide (instrPeriod s.cfg ≤ s.accI)

/-- The timer loop's condition but for HALTED: acc_t ≥ P_TIMER (R355, R357). -/
def State.timerDue (s : State) : Bool := decide (timerPeriod ≤ s.accT)

/-- acc_i <- acc_i − P_INSTR (R354). -/
def State.spendInstr (s : State) : State := { s with accI := s.accI - instrPeriod s.cfg }

/-- acc_t <- acc_t − P_TIMER (R355). -/
def State.spendTimer (s : State) : State := { s with accT := s.accT - timerPeriod }

/-- The host's input for the coming outer iteration: the head of the queue, and a free value once the queue is used up (R82;
log entry 5). -/
def State.nextInput (s : State) : HostInput :=
  match s.inputs with
  | h :: _ => h
  | [] => Config.freeInput s.iterations

/-- The host's input is taken and applied: key transitions, then quit (R81, R83, R356 step 1). -/
def State.takeInput (s : State) : State :=
  { s with
    key := applyKeys s.key s.nextInput.keys
    running := s.running && !s.nextInput.quit
    inputs := s.inputs.tail
    iterations := s.iterations + 1 }

/-- The delta is fed to both accumulators and the iteration is under way (R353, R356 step 2). -/
def State.addDelta (s : State) (d : Rat) : State :=
  { s with accI := s.accI + d, accT := s.accT + d, frameChanged := false, phase := .inside }

/-- The start of an outer iteration: inputs; the run ends when running is false or the engine is HALTED; time (R356 steps 1
and 2, R361, R367). -/
def State.startIteration (s : State) : State :=
  if s.takeInput.running = true ∧ s.isHalted = false then s.takeInput.addDelta s.nextInput.delta
  else { s.takeInput with phase := .ended }

/-- The end of an outer iteration: the framebuffer is presented if any of its ticks presented changed = true, and the audio
gate is sampled (R352, R356 step 5). -/
def State.endIteration (s : State) : State :=
  { s with framePort := s.frameChanged, audioPort := s.audioGate, phase := .between }

/-- The next event of a run (R354 to R356, R362). Inside an iteration every instruction tick comes before its timer ticks,
and neither comes once the engine is HALTED (R345, R367). After the end of the run nothing moves (R367). -/
def State.nextEvent (s : State) : Result :=
  match s.phase with
  | .ended => .next s
  | .between => .next s.startIteration
  | .inside =>
    if s.isHalted then .next s.endIteration
    else if s.instrDue then s.spendInstr.instructionTick
    else if s.timerDue then .next s.spendTimer.timerTick
    else .next s.endIteration

/-- The state in which the next event is an instruction tick that fetches: inside an outer iteration, RUNNING with an empty
fault record, at least one instruction period in acc_i, and pc where a fetch meets no fault, at the entry point 0x200 if it
was not (log entry 7). -/
def State.armFetch (s : State) : State :=
  { s with
    phase := .inside
    engine := .running
    faultRec := none
    accI := if s.instrDue then s.accI else instrPeriod s.cfg
    pc := if (fetchCheck s.cfg s.pc).isSome then 0x200#16 else s.pc }

/-- A word stored at pc, its high byte first (R101). -/
def State.placeWord (s : State) (w : Word) : State := s.writeBytes s.pc.toNat [highByteOf w, lowByteOf w]

end Sys2Proof.Machine
end

