-- ==== Sys2Proof/Machine/Step.lean ====
section
/-! DEFINITION. One step of the machine: the next event of the clock divider (Machine/Clock.lean). -/

namespace Sys2Proof.Machine

/-- One event of a run (R362): the start or the end of an outer iteration, an instruction tick, or a timer tick. -/
def step (s : State) : Host.Outcome State Fault Refusal := s.nextEvent

/-- `s` with an instruction's word, numbered as the opcode table numbers it, stored at pc, and the clock divider set so that
the very next step is the instruction tick that fetches it (log entry 7). -/
def State.withFetchWord (s : State) (nbits w : Nat) : State := s.armFetch.placeWord (tableWord nbits w)

end Sys2Proof.Machine
end

