-- ==== Sys2Proof/Machine/Boot.lean ====
section
/-! DEFINITION. Boot, the only reset (spec/70_reset_and_hazards.md R390 to R399). -/

namespace Sys2Proof.Machine

/-- The ROM input, consumed once at boot (R85): a byte string, or the loader's report that loading failed. -/
inductive RomInput where
  | bytes (bs : List Byte)
  | loadFailure
  deriving DecidableEq, Repr

/-- The bytes a boot loads; a reported failure loads none (R395, R396). -/
def RomInput.contents : RomInput → List Byte
  | .bytes bs => bs
  | .loadFailure => []

/-- Boot(config, rom) with the host's coming inputs (R390). The zeroed state with its font is `State.booted`; the ROM is
loaded verbatim at 0x200 (R395). -/
def boot (c : Config) (rom : RomInput) (inputs : List HostInput) : Result :=
  if c.stackCapacity = 0 ∨ stackCeiling < c.stackCapacity then .fault .stackCeilingExceeded
  else if romMax < rom.contents.length then .fault .romTooLarge
  else .next ((State.booted c inputs).writeBytes romBase rom.contents)

end Sys2Proof.Machine
end

