-- ==== Sys2Proof/Machine/Iteration.lean ====
section
/-! DEFINITION. The outer iteration as spec/60_exceptions.md R354 to R356 write it, with its two loops. The step of the
machine (Machine/Step.lean) takes the same events one by one. -/

namespace Sys2Proof.Machine

/-- How many periods an accumulator holds: floor(acc / period), the number of ticks that are due (R358). -/
def dueTicks (acc period : Rat) : Nat := (acc / period).floor.toNat

/-- The instruction loop (R354), with a bound on its ticks. -/
def State.instructionLoop : Nat → State → Result
  | 0, s => .next s
  | k + 1, s =>
    if s.instrDue = true ∧ s.isHalted = false then
      match s.spendInstr.instructionTick with
      | .next t => State.instructionLoop k t
      | .fault f => .fault f
      | .refused r => .refused r
    else .next s

/-- The timer loop (R355), with a bound on its ticks. -/
def State.timerLoop : Nat → State → State
  | 0, s => s
  | k + 1, s =>
    if s.timerDue = true ∧ s.isHalted = false then State.timerLoop k s.spendTimer.timerTick else s

/-- Steps 3 to 5 of an outer iteration: the instruction loop, the timer loop, the outputs (R356). The bounds are the ticks
due, so neither loop is cut short. -/
def State.runTicks (s : State) : Result :=
  match State.instructionLoop (dueTicks s.accI (instrPeriod s.cfg)) s with
  | .next t => .next (State.timerLoop (dueTicks t.accT timerPeriod) t).endIteration
  | .fault f => .fault f
  | .refused r => .refused r

/-- OuterIteration(d) with the next host input: inputs, end of run or time, the two loops, the outputs (R356). -/
def State.outerIteration (s : State) : Result :=
  match s.startIteration.phase with
  | .inside => s.startIteration.runTicks
  | .between => .next s.startIteration
  | .ended => .next s.startIteration

end Sys2Proof.Machine
end

