-- ==== Sys2Proof/Safety.lean ====
section
/-! DEFINITION. What the claims call a good state: the invariant that boot establishes and every step keeps
(spec/10_state.md R59, R63, R70, R72, R74, R82). -/

namespace Sys2Proof.Machine

/-- The fault record agrees with the engine state: it is filled exactly in HALTED, with the same cause (R74, R342). -/
def State.recordAgrees (s : State) : Prop :=
  match s.engine with
  | .halted c => ∃ r, s.faultRec = some r ∧ r.cause = c
  | .running => s.faultRec = none
  | .awaitingKey _ => s.faultRec = none

/-- Outside an iteration no tick is due, unless the engine halted or the run has ended (R72). -/
def State.clockSettled (s : State) : Prop :=
  s.phase = .between → s.isHalted = false → s.accI < instrPeriod s.cfg ∧ s.accT < timerPeriod

/-- The invariant of a run. -/
structure State.Inv (s : State) : Prop where
  /-- the configuration is one the spec admits (R14, R17, R22) -/
  cfgWf : s.cfg.wf = true
  /-- memory is in its canonical form -/
  memWf : s.mem.wf s.cfg = true
  /-- the stack holds at most STACK_CAPACITY entries (R59) -/
  stackBound : s.stack.length ≤ s.cfg.stackCapacity
  /-- the slack slot is never written (R63) -/
  slackClear : s.key[16] = false
  /-- the fault record is empty unless the engine is HALTED (R74) -/
  recordAgrees : s.recordAgrees
  /-- the accumulators are never negative (R72) -/
  accNonneg : 0 ≤ s.accI ∧ 0 ≤ s.accT
  /-- between iterations no tick is due (R72) -/
  clockSettled : s.clockSettled

/-! ### The vocabulary of the claims -/

/-- `t` is `s` with V[x] holding the number `value`; every other register and everything else is as in `s`. -/
def WritesReg (x : Nibble) (value : Nat) (s t : State) : Prop :=
  t = { s with v := t.v } ∧ (t.reg x).toNat = value ∧ ∀ r : Nibble, r ≠ x → t.reg r = s.reg r

/-- `t` is `s` with V[x] holding `result` and VF holding `flag`, the flag being what stays when x = 0xF (R177); every other
register and everything else is as in `s`. -/
def WritesRegAndFlag (x : Nibble) (result flag : Nat) (s t : State) : Prop :=
  t = { s with v := t.v } ∧ (x ≠ 0xF#4 → (t.reg x).toNat = result) ∧ (t.reg 0xF#4).toNat = flag ∧
    ∀ r : Nibble, r ≠ x → r ≠ 0xF#4 → t.reg r = s.reg r

/-- `s` after a fault entered in an instruction tick (R342): HALTED with the cause, the record filled, changed = false,
everything else as it is, pc included. -/
def haltedBy (s : State) (cause : Cause) (addr : Word) (word info : Option Word) : State :=
  { s with engine := .halted cause, faultRec := some ⟨cause, addr, word, info⟩, changed := false }

/-- `s` as an instruction's dispatch finds it: one period spent, no output yet, pc advanced by 2 (R172, R175, R354). -/
def beforeDispatch (s : State) : State :=
  { s with accI := s.accI - instrPeriod s.cfg, changed := false, unknownOpcode := none, pc := s.pc + 2#16 }

/-- `s` with the host's input `h` taken, and `rest` still to come: its key transitions and its quit (R81, R83, R356 step 1). -/
def withInput (h : HostInput) (rest : List HostInput) (s : State) : State :=
  { s with
    key := applyKeys s.key h.keys
    running := s.running && !h.quit
    inputs := rest
    iterations := s.iterations + 1 }

/-- The next event is an instruction tick: inside an iteration, a period in acc_i, the engine not HALTED (R354). -/
def tickComes (s : State) : Prop :=
  s.phase = .inside ∧ instrPeriod s.cfg ≤ s.accI ∧ s.isHalted = false

/-- The word that a fetch at pc reads: mem[pc] · 256 + mem[pc + 1] (R174). -/
def isWordAtPc (w : Word) (s : State) : Prop :=
  w.toNat = (s.readByte s.pc.toNat).toNat * 256 + (s.readByte (s.pc.toNat + 1)).toNat

/-- A fetch at pc meets no fault (R173). -/
def fetchable (s : State) : Prop :=
  (s.pc.toNat % 2 = 0 ∨ s.cfg.oddPc = .execute) ∧ s.pc.toNat + 1 < 4096

/-- The bit of a sprite of `n` rows at `I`, its corner at (x0, y0), that falls on column `c`, row `r`: bit 7 is leftmost, row
k is the byte at I + k (R290, R291). -/
def spriteBit (s : State) (x0 y0 n c r : Nat) : Bool :=
  decide (x0 ≤ c ∧ c < x0 + 8 ∧ y0 ≤ r ∧ r < y0 + n) && (s.readByte (s.iReg.toNat + (r - y0))).getLsbD (7 - (c - x0))

/-- CLS and DRW, the two instructions that draw (R179, R293). -/
def draws : Instr → Bool
  | .cls _ => true
  | .drw _ _ _ => true
  | .ret _ | .sys _ | .jp _ | .call _ | .ldI _ | .jpOff _ => false
  | .seImm _ _ | .sneImm _ _ | .ldImm _ _ | .addImm _ _ | .rnd _ _ => false
  | .seReg _ _ _ | .sneReg _ _ _ => false
  | .ldReg _ _ | .orReg _ _ | .andReg _ _ | .xorReg _ _ | .addReg _ _ => false
  | .sub _ _ | .shr _ _ | .subn _ _ | .shl _ _ => false
  | .skp _ | .sknp _ | .ldVxDt _ | .ldVxK _ | .ldDtVx _ | .ldStVx _ => false
  | .addI _ | .ldF _ | .ldB _ | .ldMemVx _ | .ldVxMem _ => false

/-- The five instructions that consult the quirk mode (R181). -/
def consultsQuirk : Instr → Bool
  | .shr _ _ | .shl _ _ | .jpOff _ | .ldMemVx _ | .ldVxMem _ => true
  | .cls _ | .ret _ | .sys _ | .jp _ | .call _ | .ldI _ => false
  | .seImm _ _ | .sneImm _ _ | .ldImm _ _ | .addImm _ _ | .rnd _ _ => false
  | .seReg _ _ _ | .sneReg _ _ _ | .drw _ _ _ => false
  | .ldReg _ _ | .orReg _ _ | .andReg _ _ | .xorReg _ _ | .addReg _ _ => false
  | .sub _ _ | .subn _ _ => false
  | .skp _ | .sknp _ | .ldVxDt _ | .ldVxK _ | .ldDtVx _ | .ldStVx _ => false
  | .addI _ | .ldF _ | .ldB _ => false

/-- `s` with another quirk mode. -/
def withQuirk (q : QuirkMode) (s : State) : State := { s with cfg := { s.cfg with quirk := q } }

/-- A register that instruction `i` may write, by its operands (R53 and the instruction rules). -/
def mayWriteReg : Instr → Nibble → Prop
  | .ldImm x _, r | .addImm x _, r | .ldReg x _, r | .rnd x _, r | .ldVxDt x, r => r = x
  | .orReg x _, r | .andReg x _, r | .xorReg x _, r | .addReg x _, r => r = x ∨ r = 0xF#4
  | .sub x _, r | .shr x _, r | .subn x _, r | .shl x _, r => r = x ∨ r = 0xF#4
  | .drw _ _ _, r => r = 0xF#4
  | .ldVxMem x, r => r.toNat ≤ x.toNat
  | .cls _, _ | .ret _, _ | .sys _, _ | .jp _, _ | .call _, _ | .ldI _, _ | .jpOff _, _ => False
  | .seImm _ _, _ | .sneImm _ _, _ | .seReg _ _ _, _ | .sneReg _ _ _, _ => False
  | .skp _, _ | .sknp _, _ | .ldVxK _, _ | .ldDtVx _, _ | .ldStVx _, _ => False
  | .addI _, _ | .ldF _, _ | .ldB _, _ | .ldMemVx _, _ => False

/-- The next state of an outcome, none at a fault or a refusal. -/
def nextOf : Host.Outcome State Fault Refusal → Option State
  | .next t => some t
  | .fault _ => none
  | .refused _ => none

/-- CALLs one after the other, each with the pc its fetch left (a + 2) and its target. -/
def callAll : List (Word × Addr12) → State → Option State
  | [], s => some s
  | (pc, nnn) :: rest, s =>
    match nextOf (exec (.call nnn) (s.setPc pc)) with
    | some t => callAll rest t
    | none => none

/-- `n` RETs one after the other: the program counters they restore, in order, and the state they leave. -/
def returnAll : Nat → State → Option (List Word × State)
  | 0, s => some ([], s)
  | n + 1, s =>
    match nextOf (exec (.ret 0#4) s) with
    | some t => (returnAll n t).map fun p => (t.pc :: p.1, p.2)
    | none => none

end Sys2Proof.Machine
end

