-- ==== Sys2Proof/Certificates/Slice0/Obligations.lean ====
section
/-! DEFINITION. The statements for the provers, in the order of OBLIGATIONS.json. A statement about one instruction says which
word decodes to it, that exec answers a next state, what that state holds and what it leaves as it was. pc in such a statement
is pc after the advance (a + 2), as R172 has it. The vocabulary stands in Sys2Proof/Safety.lean. -/

open Sys2Proof Sys2Proof.Machine

/-! ### Encoding -/

/-- Words written out from spec/95_test_vectors.md 2.1 and 2.2 decode to the instructions they stand for (R138). -/
def Obligations.SpecWordsDecode : Prop :=
  decodeWord 0x00E0#16 = .ok (.cls 0) ∧ decodeWord 0x00EE#16 = .ok (.ret 0) ∧ decodeWord 0x0123#16 = .ok (.sys 0x123) ∧
  decodeWord 0x01E0#16 = .ok (.cls 1) ∧ decodeWord 0x5121#16 = .ok (.seReg 1 2 1) ∧
  decodeWord 0x63A5#16 = .ok (.ldImm 3 0xA5) ∧ decodeWord 0x812E#16 = .ok (.shl 1 2) ∧
  decodeWord 0xA123#16 = .ok (.ldI 0x123) ∧ decodeWord 0xD125#16 = .ok (.drw 1 2 5) ∧
  decodeWord 0xE19E#16 = .ok (.skp 1) ∧ decodeWord 0xF165#16 = .ok (.ldVxMem 1) ∧
  decodeWord 0x8128#16 = .error (.undefinedType8 0x8128) ∧ decodeWord 0xE12E#16 = .error (.undefinedTypeE 0xE12E) ∧
  decodeWord 0xF130#16 = .error (.undefinedTypeF 0xF130)

/-- Decoding an encoded well-formed instruction gives it back, as a word and as the first two of any bytes, the high byte
first: no bit of an operand is dropped, at any value (R131, R138, R101). -/
def Obligations.DecodeOfEncodeIsIdentity : Prop :=
  ∀ (i : Instr) (rest : List Byte), wellFormed i = true →
    decodeWord (encode i) = .ok i ∧ decode (encodeBytes i ++ rest) = .ok (i, rest)

/-- Every word that decodes is the encoding of the one instruction it decodes to, and that instruction is well-formed. -/
def Obligations.EncodeOfDecodeIsIdentity : Prop :=
  ∀ (w : Word) (i : Instr), decodeWord w = .ok i → encode i = w ∧ wellFormed i = true

/-- The undefined words are exactly those R139 lists, by their type, n and nn. -/
def Obligations.UndefinedWordsAreThoseListed : Prop :=
  ∀ w : Word, (∃ r, decodeWord w = .error r) ↔
    ((w.toNat / 4096 = 0x8 ∧ w.toNat % 16 ∈ [0x8, 0x9, 0xA, 0xB, 0xC, 0xD, 0xF]) ∨
      (w.toNat / 4096 = 0xE ∧ w.toNat % 256 ∉ [0x9E, 0xA1]) ∨
      (w.toNat / 4096 = 0xF ∧ w.toNat % 256 ∉ [0x07, 0x0A, 0x15, 0x18, 0x1E, 0x29, 0x33, 0x55, 0x65]))

/-! ### Reset and boot -/

/-- State.reset is the state of a boot with the default configuration and no ROM bytes, and it holds the values of R76. The
quirk mode of the default configuration is the model's (log entry 1) and is not stated here. -/
def Obligations.ResetHoldsBootValues : Prop :=
  boot bootConfig .loadFailure [] = .next State.reset ∧
  (∀ r : Nibble, State.reset.reg r = 0#8) ∧ State.reset.iReg = 0#16 ∧ State.reset.pc = 0x200#16 ∧
  State.reset.dt = 0#8 ∧ State.reset.st = 0#8 ∧ State.reset.stack = [] ∧
  (∀ k : Fin 17, State.reset.key[k] = false) ∧ (∀ c r : Nat, State.reset.fb.get c r = false) ∧
  State.reset.engine = .running ∧ (∀ k : Fin 16, State.reset.keyLatch[k] = false) ∧
  State.reset.accI = 0 ∧ State.reset.accT = 0 ∧ State.reset.faultRec = none ∧ State.reset.running = true ∧
  State.reset.cfg.instrHz = 700 ∧ State.reset.cfg.stackCapacity = 16 ∧ State.reset.cfg.fontBase = 0x050 ∧
  (∀ a : Nat, State.reset.readByte a = if 0x050 ≤ a ∧ a < 0x0A0 then fontData.getD (a - 0x050) 0#8 else 0#8)

/-- A boot with an admitted capacity and a ROM that fits (or a reported load failure) gives a machine: every entity at the
value of R76, pc at 0x200, and every byte of memory zero but for the font at FONT_BASE and the ROM at 0x200 (R390, R393 to
R396, R398, R399). The model's own are the canonical form of memory, which the last clause states (log entry 12), and the fields
of State.booted for the host's coming inputs and for the outputs (log entries 5 and 8). -/
def Obligations.BootBuildsTheMachine : Prop :=
  ∀ (c : Config) (rom : RomInput) (inputs : List HostInput),
    1 ≤ c.stackCapacity → c.stackCapacity ≤ 16 → c.fontBase + 80 ≤ 0x200 → rom.contents.length ≤ 3584 →
    ∃ t, boot c rom inputs = .next t ∧ t = { State.booted c inputs with mem := t.mem } ∧
      (∀ r : Nibble, t.reg r = 0#8) ∧ t.iReg = 0#16 ∧ t.pc = 0x200#16 ∧ t.dt = 0#8 ∧ t.st = 0#8 ∧ t.stack = [] ∧
      (∀ k : Fin 17, t.key[k] = false) ∧ (∀ x y : Nat, t.fb.get x y = false) ∧ t.engine = .running ∧
      (∀ k : Fin 16, t.keyLatch[k] = false) ∧ t.accI = 0 ∧ t.accT = 0 ∧ t.faultRec = none ∧ t.running = true ∧
      (∀ a : Nat, a < 4096 → t.readByte a =
        if 0x200 ≤ a ∧ a < 0x200 + rom.contents.length then rom.contents.getD (a - 0x200) 0#8
        else if c.fontBase ≤ a ∧ a < c.fontBase + 80 then fontData.getD (a - c.fontBase) 0#8
        else 0#8) ∧
      t.mem.wf c = true

/-- Boot refuses a capacity of 0 or above the ceiling first, then a ROM longer than 3584 bytes, and no machine is built (R392,
R397). -/
def Obligations.BootRefusesBadConfiguration : Prop :=
  ∀ (c : Config) (rom : RomInput) (inputs : List HostInput),
    (c.stackCapacity = 0 ∨ 16 < c.stackCapacity → boot c rom inputs = .fault .stackCeilingExceeded) ∧
    (1 ≤ c.stackCapacity → c.stackCapacity ≤ 16 → 3584 < rom.contents.length → boot c rom inputs = .fault .romTooLarge)

/-- The glyphs of the font at reset, read at FONT_BASE + 5 · d (R66, R67). -/
def Obligations.FontGlyphsAtReset : Prop :=
  State.reset.readBytes 0x050 5 = [0xF0, 0x90, 0x90, 0x90, 0xF0] ∧
  State.reset.readBytes 0x055 5 = [0x20, 0x60, 0x20, 0x20, 0x70] ∧
  State.reset.readBytes 0x05A 5 = [0xF0, 0x10, 0xF0, 0x80, 0xF0] ∧
  State.reset.readBytes 0x05F 5 = [0xF0, 0x10, 0xF0, 0x10, 0xF0] ∧
  State.reset.readBytes 0x064 5 = [0x90, 0x90, 0xF0, 0x10, 0x10] ∧
  State.reset.readBytes 0x069 5 = [0xF0, 0x80, 0xF0, 0x10, 0xF0] ∧
  State.reset.readBytes 0x06E 5 = [0xF0, 0x80, 0xF0, 0x90, 0xF0] ∧
  State.reset.readBytes 0x073 5 = [0xF0, 0x10, 0x20, 0x40, 0x40] ∧
  State.reset.readBytes 0x078 5 = [0xF0, 0x90, 0xF0, 0x90, 0xF0] ∧
  State.reset.readBytes 0x07D 5 = [0xF0, 0x90, 0xF0, 0x10, 0xF0] ∧
  State.reset.readBytes 0x082 5 = [0xF0, 0x90, 0xF0, 0x90, 0x90] ∧
  State.reset.readBytes 0x087 5 = [0xE0, 0x90, 0xE0, 0x90, 0xE0] ∧
  State.reset.readBytes 0x08C 5 = [0xF0, 0x80, 0x80, 0x80, 0xF0] ∧
  State.reset.readBytes 0x091 5 = [0xE0, 0x90, 0x90, 0x90, 0xE0] ∧
  State.reset.readBytes 0x096 5 = [0xF0, 0x80, 0xF0, 0x80, 0xF0] ∧
  State.reset.readBytes 0x09B 5 = [0xF0, 0x80, 0xF0, 0x80, 0x80]

/-! ### The instruction tick -/

/-- A step runs the decoded instruction: when an instruction tick comes in RUNNING, the fetch meets no fault and the word at
pc decodes to i, step is exec of i with pc moved past the word, one period spent and no output yet (R172, R174, R175). A word
of AMBIGUOUS under STRICT_SECONDARY_DECODE is stated apart. -/
def Obligations.StepRunsDecodedInstruction : Prop :=
  ∀ (s : State) (w : Word) (i : Instr), tickComes s → s.engine = .running → fetchable s → isWordAtPc w s →
    decodeWord w = .ok i → (s.cfg.strictSecondary = false ∨ isAmbiguous w = false) →
    step s = exec i (beforeDispatch s)

/-- FetchCheck: an odd pc under ODD_PC_POLICY = fault halts with MisalignedFetch first, else a pc with a + 1 ≥ 4096 halts with
FetchOutOfRange; pc stays a, no word is recorded, info is a (R173, R342). -/
def Obligations.FetchFaultsHaltAtTheAddress : Prop :=
  ∀ s : State, tickComes s → s.engine = .running →
    step s =
      if s.pc.toNat % 2 = 1 ∧ s.cfg.oddPc = .fault then
        .next { haltedBy s .misalignedFetch s.pc none (some s.pc) with
          accI := s.accI - instrPeriod s.cfg, unknownOpcode := none }
      else if 4096 ≤ s.pc.toNat + 1 then
        .next { haltedBy s .fetchOutOfRange s.pc none (some s.pc) with
          accI := s.accI - instrPeriod s.cfg, unknownOpcode := none }
      else s.spendInstr.clearOutputs.advancePc.dispatch (s.fetchWord s.pc.toNat)

/-- An undefined word emits UnknownOpcode(a, w) and moves pc to a + 2, and nothing else happens (R178); a SYS word does the
same (R178, R231). -/
def Obligations.UndefinedWordIsLoggedNoOp : Prop :=
  (∀ (s : State) (w : Word) (r : Reject), tickComes s → s.engine = .running → fetchable s → isWordAtPc w s →
    decodeWord w = .error r → (s.cfg.strictSecondary = false ∨ isAmbiguous w = false) →
    step s = .next { beforeDispatch s with unknownOpcode := some ⟨s.pc, w⟩ }) ∧
  (∀ (s : State) (nnn : Addr12), nnn.toNat % 256 ≠ 0xE0 → nnn.toNat % 256 ≠ 0xEE →
    decodeWord (0x0#4 ++ nnn) = .ok (.sys nnn) ∧
    exec (.sys nnn) s = .next { s with unknownOpcode := some ⟨s.pc - 2#16, 0x0#4 ++ nnn⟩ })

/-- Under STRICT_SECONDARY_DECODE a word of AMBIGUOUS halts with AmbiguousEncoding at dispatch, pc at a + 2, info the word;
without it dispatch never does so (R185). -/
def Obligations.StrictDecodeHaltsOnAmbiguousWord : Prop :=
  (∀ (s : State) (w : Word), tickComes s → s.engine = .running → fetchable s → isWordAtPc w s →
    s.cfg.strictSecondary = true → isAmbiguous w = true →
    step s = .next (haltedBy (beforeDispatch s) .ambiguousEncoding s.pc (some w) (some w))) ∧
  (∀ (s t : State) (w : Word), s.cfg.strictSecondary = false → s.engine = .running → s.dispatch w = .next t →
    t.engine ≠ .halted .ambiguousEncoding)

/-- AMBIGUOUS is the set R141 lists: type 0x0 with n = 0x0 or 0xE but for 0x00E0 and 0x00EE; EXYE with y ≠ 0x9 and EXY1 with
y ≠ 0xA. -/
def Obligations.AmbiguousWordsAreThoseListed : Prop :=
  ∀ w : Word, isAmbiguous w = true ↔
    ((w.toNat / 4096 = 0x0 ∧ (w.toNat % 16 = 0x0 ∨ w.toNat % 16 = 0xE) ∧ w.toNat ≠ 0x00E0 ∧ w.toNat ≠ 0x00EE) ∨
      (w.toNat / 4096 = 0xE ∧ w.toNat % 16 = 0xE ∧ w.toNat / 16 % 16 ≠ 0x9) ∨
      (w.toNat / 4096 = 0xE ∧ w.toNat % 16 = 0x1 ∧ w.toNat / 16 % 16 ≠ 0xA))

/-- The instruction tick in AWAITING_KEY(x): nothing is fetched and pc stays; the latch takes the keypad; when a key qualifies
the lowest such key goes to V[x] and the engine is RUNNING again, else it goes on waiting (R317, R318). -/
def Obligations.KeyWaitTickEndsOnLowestKey : Prop :=
  ∀ (s : State) (x : Nibble), tickComes s → s.engine = .awaitingKey x →
    ((∀ k, s.keyQualifies k = false) →
      ∃ t, step s = .next t ∧ (∀ j : Nibble, t.keyLatch[j.toNat]'(j.isLt) = s.keyDown j) ∧
        t = { s with accI := s.accI - instrPeriod s.cfg, changed := false, unknownOpcode := none, keyLatch := t.keyLatch }) ∧
    (∀ k, s.keyQualifies k = true → (∀ j : Nibble, j.toNat < k.toNat → s.keyQualifies j = false) →
      ∃ t, step s = .next t ∧ (∀ j : Nibble, t.keyLatch[j.toNat]'(j.isLt) = s.keyDown j) ∧
        (t.reg x).toNat = k.toNat ∧ (∀ r : Nibble, r ≠ x → t.reg r = s.reg r) ∧
        t = { s with accI := s.accI - instrPeriod s.cfg, changed := false, unknownOpcode := none, keyLatch := t.keyLatch,
                     v := t.v, engine := .running }) ∧
    (∀ k : Nibble, s.keyQualifies k = true ↔
      s.keyDown k = true ∧ (s.cfg.keyWait = .edge → s.keyLatch[k.toNat]'(k.isLt) = false))

/-- The changed output of an instruction tick: true exactly when the tick executed CLS or DRW and did not fault; false after a
tick in AWAITING_KEY, of an undefined word, or of any other instruction (R179); and a tick in HALTED changes nothing, emits
nothing and presents changed = false (R179, R183). -/
def Obligations.ChangedOnlyAfterClsAndDrw : Prop :=
  (∀ s t : State, tickComes s → step s = .next t →
    (t.changed = true ↔ s.engine = .running ∧ t.isHalted = false ∧ fetchable s ∧
      ∃ w i, isWordAtPc w s ∧ decodeWord w = .ok i ∧ draws i = true)) ∧
  (∀ (s : State) (c : Cause), s.engine = .halted c →
    s.instructionTick = .next { s with changed := false, unknownOpcode := none })

/-- A tick that halts the engine is precise: every piece of state is as before the tick, but for the instruction period it
spends, its outputs (changed = false, no event) and the fault: the engine state and the record, which holds the cause, the
tick's address and the word fetched (none for a fetch fault, whose info is the address). pc is a for a fetch fault and a + 2
for any other (R182). -/
def Obligations.FaultsArePrecise : Prop :=
  ∀ (s t : State) (c : Cause), s.isHalted = false → step s = .next t → t.engine = .halted c →
    if c = .misalignedFetch ∨ c = .fetchOutOfRange then
      t = { haltedBy s c s.pc none (some s.pc) with accI := s.accI - instrPeriod s.cfg, unknownOpcode := none }
    else
      ∃ w info, isWordAtPc w s ∧
        t = { haltedBy s c s.pc (some w) info with
          pc := s.pc + 2#16, accI := s.accI - instrPeriod s.cfg, unknownOpcode := none }

/-- HALTED is absorbing: from then on no step changes the engine state, the fault record, a register, I, pc, a timer, the
stack, memory or the framebuffer (R183, R346, R367 (b)). -/
def Obligations.HaltedIsAbsorbing : Prop :=
  ∀ (n : Nat) (s : State) (c : Cause), s.engine = .halted c →
    ∃ t, Sys2Proof.core.run n s = .next t ∧ t.engine = .halted c ∧ t.faultRec = s.faultRec ∧ t.v = s.v ∧ t.iReg = s.iReg ∧
      t.pc = s.pc ∧ t.dt = s.dt ∧ t.st = s.st ∧ t.stack = s.stack ∧ t.mem = s.mem ∧ t.fb = s.fb ∧ t.keyLatch = s.keyLatch

/-- A step always answers a next state, whatever the instruction or the word. That a fault of R341 is a next state, HALTED with
its record, is the model's reading of R340 and R342 (log entry 10); that a run which has ended answers the same state again is
the model's too (log entry 17). -/
def Obligations.StepAlwaysAnswersNext : Prop := ∀ s : State, ∃ t, step s = .next t

/-! ### The clock divider -/

/-- The timer tick: when no instruction tick is due and acc_t holds a period, DT and ST go down by one, not below zero, in
RUNNING and in AWAITING_KEY alike, and nothing else changes (R351, R355). -/
def Obligations.TimerTickCountsBothDown : Prop :=
  ∀ s : State, s.phase = .inside → s.isHalted = false → s.accI < instrPeriod s.cfg → 1 / 60 ≤ s.accT →
    ∃ t, step s = .next t ∧ t = { s with accT := s.accT - 1 / 60, dt := t.dt, st := t.st } ∧
      t.dt.toNat = s.dt.toNat - 1 ∧ t.st.toNat = s.st.toNat - 1

/-- Any stretch of time worth k timer periods counts each active timer down by exactly k, in k steps (R351, R357). -/
def Obligations.TimerPeriodsCountExactly : Prop :=
  ∀ (k : Nat) (s : State), s.phase = .inside → s.isHalted = false → s.accI < instrPeriod s.cfg → (k : Rat) / 60 ≤ s.accT →
    ∃ t, Sys2Proof.core.run k s = .next t ∧ t = { s with accT := s.accT - (k : Rat) / 60, dt := t.dt, st := t.st } ∧
      t.dt.toNat = s.dt.toNat - k ∧ t.st.toNat = s.st.toNat - k

/-- The instruction loop spends exactly the whole periods of acc_i, floor(acc_i / P_INSTR) of them, unless the engine halts,
and what is left is less than one period (R354, R357). -/
def Obligations.InstructionLoopSpendsWholePeriods : Prop :=
  ∀ s t : State, s.cfg.wf = true → 0 ≤ s.accI →
    State.instructionLoop (dueTicks s.accI (instrPeriod s.cfg)) s = .next t → t.isHalted = false →
    t.accI = s.accI - (s.accI * s.cfg.instrHz).floor / s.cfg.instrHz ∧ 0 ≤ t.accI ∧ t.accI < 1 / s.cfg.instrHz

/-- The start of an outer iteration: the next input's key transitions and quit are applied; the run ends when running is false
or the engine is HALTED, else the delta goes to both accumulators and no tick of the iteration has presented changed yet; nothing
else changes (R356 steps 1 and 2, R361, R367). The model's own are: the queue of inputs, and the free input Config.freeInput,
whatever it is, once the queue is empty (log entry 5); the two steps of R356 as one event (log entry 6); and that the keys of the
input with which the run ends are still applied (log entry 17). -/
def Obligations.IterationStartTakesHostInput : Prop :=
  ∀ (s : State) (h : HostInput) (rest : List HostInput), s.phase = .between →
    (s.inputs = h :: rest ∨ s.inputs = [] ∧ h = Config.freeInput s.iterations ∧ rest = []) →
    step s = .next
      (if s.running = true ∧ h.quit = false ∧ s.isHalted = false then
        { withInput h rest s with
          phase := .inside, accI := s.accI + h.delta, accT := s.accT + h.delta, frameChanged := false }
      else { withInput h rest s with phase := .ended })

/-- Key transitions: the last transition of a key decides it, wherever it stands among those of the other keys; a key without a
transition keeps its state; and the slack slot 16 is never written (R63, R81, R363). That the transitions come as a list in
order is the model's (log entry 5). -/
def Obligations.KeyTransitionsReachSixteenKeys : Prop :=
  ∀ key : Vector Bool 17,
    (∀ ts : List (Nibble × Bool), (applyKeys key ts)[16] = key[16]) ∧
    (∀ (ts : List (Nibble × Bool)) (k : Nibble), (∀ p ∈ ts, p.1 ≠ k) →
      (applyKeys key ts)[k.toNat]'(Nat.lt_trans k.isLt (Nat.lt_succ_self 16)) =
        key[k.toNat]'(Nat.lt_trans k.isLt (Nat.lt_succ_self 16))) ∧
    (∀ (before after : List (Nibble × Bool)) (k : Nibble) (down : Bool), (∀ p ∈ after, p.1 ≠ k) →
      (applyKeys key (before ++ (k, down) :: after))[k.toNat]'(Nat.lt_trans k.isLt (Nat.lt_succ_self 16)) = down)

/-- The end of an outer iteration, the engine not halted: once no tick is due, the framebuffer is presented if a tick of the
iteration presented changed = true (R356 step 5, R87), and the audio gate samples ST > 0 (R352, R88); nothing else changes. The
fields that hold the outputs are the model's (log entry 8). -/
def Obligations.IterationEndSamplesOutputs : Prop :=
  ∀ s : State, s.phase = .inside → s.isHalted = false → s.accI < instrPeriod s.cfg → s.accT < 1 / 60 →
    step s = .next { s with phase := .between, framePort := s.frameChanged, audioPort := decide (0 < s.st.toNat) }

/-- After the end of a run nothing moves, in any number of steps (R361, R367). The phase of the ended run is the model's (log
entry 17). -/
def Obligations.EndedRunStaysAsItIs : Prop :=
  ∀ (n : Nat) (s : State), s.phase = .ended → Sys2Proof.core.run n s = .next s

/-- The steps of the machine, which flatten the clock divider into events (log entry 6), are the outer iteration of R356: from
the point between two iterations, some positive number of steps reaches exactly the state that the inputs, the instruction loop,
the timer loop and the outputs give in that order (R354, R355, R356, R362). State.outerIteration shares with the steps the
model's input queue and its readings of an iteration that halts or ends the run (log entries 5, 17 and 18). -/
def Obligations.StepsRefineOuterIteration : Prop :=
  ∀ s : State, s.phase = .between → s.cfg.wf = true → 0 ≤ s.accI → 0 ≤ s.accT →
    ∃ n t, Sys2Proof.core.run (n + 1) s = .next t ∧ s.outerIteration = .next t ∧ t.phase ≠ .inside

/-! ### Invariants and whole-machine rules -/

/-- The invariant holds right after reset. -/
def Obligations.ResetSatisfiesInvariant : Prop := State.reset.Inv

/-- Every step keeps the invariant: memory canonical, stack within capacity, the slack slot clear, the fault record empty
unless HALTED, accumulators not negative and settled between iterations (R59, R63, R72, R74). -/
def Obligations.StepKeepsInvariant : Prop := ∀ s t : State, s.Inv → step s = .next t → t.Inv

/-- The configuration never changes during a run (R84, R391). -/
def Obligations.ConfigurationNeverChanges : Prop :=
  ∀ (n : Nat) (s t : State), Sys2Proof.core.run n s = .next t → t.cfg = s.cfg

/-- The keypad and running change only at the start of an outer iteration: within one, every tick sees the same keypad (R81,
R116, R361). -/
def Obligations.HostInputsLandBetweenIterations : Prop :=
  ∀ s t : State, step s = .next t → s.phase ≠ .between → t.key = s.key ∧ t.running = s.running ∧ t.inputs = s.inputs

/-- The quirk mode is consulted by exactly five instructions: every other instruction gives the same result in both modes, and
each of SHR, SHL, JP_OFF, LD_MEM_VX and LD_VX_MEM has a state in which the two modes differ (R181). -/
def Obligations.QuirkReachesExactlyFiveInstructions : Prop :=
  (∀ (i : Instr) (s t : State) (q : QuirkMode), consultsQuirk i = false → exec i s = .next t →
    exec i (withQuirk q s) = .next (withQuirk q t)) ∧
  (∀ i : Instr, i ∈ [.shr 1 2, .shl 1 2, .jpOff 0x300, .ldMemVx 1, .ldVxMem 1] →
    ∃ s t u, exec i (withQuirk .legacy s) = .next t ∧ exec i (withQuirk .modern s) = .next u ∧
      withQuirk .modern t ≠ u) ∧
  (∀ (i : Instr) (s t : State) (x y : Nibble), i ∈ [.orReg x y, .andReg x y, .xorReg x y] → exec i s = .next t →
    t.reg 0xF#4 = 0#8)

/-- What an instruction may write, over all of them: a register only if it is the instruction's own (R53); memory only LD_B and
LD_MEM_VX (R404); the framebuffer only CLS and DRW (R293); the stack only CALL and RET (R59); DT only LD_DT_VX and ST only
LD_ST_VX (R57); I only the five of R56; and no instruction writes the keypad, the configuration, the accumulators, running or
the host's coming inputs. -/
def Obligations.InstructionsWriteOnlyTheirOwn : Prop :=
  ∀ (i : Instr) (s t : State), exec i s = .next t →
    (∀ r : Nibble, ¬ mayWriteReg i r → t.reg r = s.reg r) ∧
    ((∀ x, i ≠ .ldB x) → (∀ x, i ≠ .ldMemVx x) → ∀ a, t.readByte a = s.readByte a) ∧
    (draws i = false → t.fb = s.fb) ∧
    ((∀ x, i ≠ .ret x) → (∀ nnn, i ≠ .call nnn) → t.stack = s.stack) ∧
    ((∀ x, i ≠ .ldDtVx x) → t.dt = s.dt) ∧ ((∀ x, i ≠ .ldStVx x) → t.st = s.st) ∧
    ((∀ nnn, i ≠ .ldI nnn) → (∀ x, i ≠ .addI x) → (∀ x, i ≠ .ldF x) →
      (s.cfg.quirk = .modern ∨ (∀ x, i ≠ .ldMemVx x) ∧ ∀ x, i ≠ .ldVxMem x) → t.iReg = s.iReg) ∧
    ((∀ x, i ≠ .ldVxK x) → t.keyLatch = s.keyLatch) ∧ ((∀ x nn, i ≠ .rnd x nn) → t.draws = s.draws) ∧
    t.key = s.key ∧ t.cfg = s.cfg ∧ t.accI = s.accI ∧ t.accT = s.accT ∧ t.running = s.running ∧ t.inputs = s.inputs ∧
    t.phase = s.phase

/-- The timers change only by a timer tick, by LD_DT_VX and by LD_ST_VX (R57, R350). -/
def Obligations.TimersMoveOnlyByTickOrSet : Prop :=
  ∀ s t : State, step s = .next t → (t.dt ≠ s.dt ∨ t.st ≠ s.st) →
    (s.isHalted = false ∧ 1 / 60 ≤ s.accT ∧ t.accT = s.accT - 1 / 60 ∧ t.pc = s.pc) ∨
    (s.engine = .running ∧ ∃ w x, isWordAtPc w s ∧ (decodeWord w = .ok (.ldDtVx x) ∨ decodeWord w = .ok (.ldStVx x)))

/-! ### Memory -/

/-- A byte written is read back and every other byte is as before (R105, R111). The canonical form of memory, which is the
premise and is kept, is the model's own (log entry 12). -/
def Obligations.MemoryReadsLastWrite : Prop :=
  ∀ (s : State) (a : Nat) (b : Byte), s.mem.wf s.cfg = true → a < 4096 →
    (s.writeBytes a [b]).readByte a = b ∧ (∀ a', a' ≠ a → (s.writeBytes a [b]).readByte a' = s.readByte a') ∧
    (s.writeBytes a [b]).mem.wf s.cfg = true

/-- A byte written by an instruction is seen by the next fetch: after an FX55 that stores V0, V1 over a + 2, the word of the
next tick is V0 · 256 + V1 (R114, R404). -/
def Obligations.StoredWordIsFetchedNext : Prop :=
  ∀ (s : State) (x : Nibble), 1 ≤ x.toNat → s.mem.wf s.cfg = true → s.iReg = s.pc → s.iReg.toNat + x.toNat < 4096 →
    ∃ t, exec (.ldMemVx x) s = .next t ∧ t.pc = s.pc ∧ isWordAtPc (s.reg 0#4 ++ s.reg 1#4) t

/-! ### Register and arithmetic instructions -/

/-- LD_IMM 6XNN: V[x] is nn. ADD_IMM 7XNN: V[x] is the sum modulo 256 and no flag is written. LD_REG 8XY0: V[x] is V[y].
Nothing else changes (R202, R203, R204). -/
def Obligations.PlainRegisterWritesLeaveNoFlag : Prop :=
  ∀ (x y : Nibble) (nn : Byte) (s : State),
    (decodeWord (0x6#4 ++ x ++ nn) = .ok (.ldImm x nn) ∧
      ∃ t, exec (.ldImm x nn) s = .next t ∧ WritesReg x nn.toNat s t) ∧
    (decodeWord (0x7#4 ++ x ++ nn) = .ok (.addImm x nn) ∧
      ∃ t, exec (.addImm x nn) s = .next t ∧ WritesReg x (((s.reg x).toNat + nn.toNat) % 256) s t) ∧
    (decodeWord (0x8#4 ++ x ++ y ++ 0x0#4) = .ok (.ldReg x y) ∧
      ∃ t, exec (.ldReg x y) s = .next t ∧ WritesReg x (s.reg y).toNat s t)

/-- OR, AND and XOR (8XY1, 8XY2, 8XY3): V[x] is the bitwise result of the old V[x] and V[y], VF is 0 (R205, R206, R207). -/
def Obligations.LogicOpsResetVf : Prop :=
  ∀ (x y : Nibble) (s : State),
    (decodeWord (0x8#4 ++ x ++ y ++ 0x1#4) = .ok (.orReg x y) ∧
      ∃ t, exec (.orReg x y) s = .next t ∧ WritesRegAndFlag x ((s.reg x).toNat ||| (s.reg y).toNat) 0 s t) ∧
    (decodeWord (0x8#4 ++ x ++ y ++ 0x2#4) = .ok (.andReg x y) ∧
      ∃ t, exec (.andReg x y) s = .next t ∧ WritesRegAndFlag x ((s.reg x).toNat &&& (s.reg y).toNat) 0 s t) ∧
    (decodeWord (0x8#4 ++ x ++ y ++ 0x3#4) = .ok (.xorReg x y) ∧
      ∃ t, exec (.xorReg x y) s = .next t ∧ WritesRegAndFlag x ((s.reg x).toNat ^^^ (s.reg y).toNat) 0 s t)

/-- ADD_REG 8XY4: V[x] is the sum modulo 256, VF is 1 exactly when the sum exceeds 255 (R208). -/
def Obligations.AddRegWritesCarry : Prop :=
  ∀ (x y : Nibble) (s : State), decodeWord (0x8#4 ++ x ++ y ++ 0x4#4) = .ok (.addReg x y) ∧
    ∃ t, exec (.addReg x y) s = .next t ∧
      WritesRegAndFlag x (((s.reg x).toNat + (s.reg y).toNat) % 256)
        (if (s.reg x).toNat + (s.reg y).toNat > 255 then 1 else 0) s t

/-- SUB 8XY5 and SUBN 8XY7: V[x] is V[x] − V[y], or V[y] − V[x], modulo 256; VF is 1 exactly when no borrow occurs (R209,
R210). -/
def Obligations.SubtractionsWriteNoBorrow : Prop :=
  ∀ (x y : Nibble) (s : State),
    (decodeWord (0x8#4 ++ x ++ y ++ 0x5#4) = .ok (.sub x y) ∧
      ∃ t, exec (.sub x y) s = .next t ∧
        WritesRegAndFlag x (((s.reg x).toNat + 256 - (s.reg y).toNat) % 256)
          (if (s.reg x).toNat ≥ (s.reg y).toNat then 1 else 0) s t) ∧
    (decodeWord (0x8#4 ++ x ++ y ++ 0x7#4) = .ok (.subn x y) ∧
      ∃ t, exec (.subn x y) s = .next t ∧
        WritesRegAndFlag x (((s.reg y).toNat + 256 - (s.reg x).toNat) % 256)
          (if (s.reg y).toNat ≥ (s.reg x).toNat then 1 else 0) s t)

/-- SHR 8XY6 and SHL 8XYE: the source is V[y] in legacy mode and V[x] in modern mode. SHR: V[x] is half of it, VF its bit 0.
SHL: V[x] is twice it modulo 256, VF its bit 7 (R211, R212). -/
def Obligations.ShiftsMoveQuirkSource : Prop :=
  ∀ (x y : Nibble) (s : State),
    decodeWord (0x8#4 ++ x ++ y ++ 0x6#4) = .ok (.shr x y) ∧ decodeWord (0x8#4 ++ x ++ y ++ 0xE#4) = .ok (.shl x y) ∧
    (s.cfg.quirk = .legacy →
      (∃ t, exec (.shr x y) s = .next t ∧ WritesRegAndFlag x ((s.reg y).toNat / 2) ((s.reg y).toNat % 2) s t) ∧
      (∃ t, exec (.shl x y) s = .next t ∧ WritesRegAndFlag x ((s.reg y).toNat * 2 % 256) ((s.reg y).toNat / 128) s t)) ∧
    (s.cfg.quirk = .modern →
      (∃ t, exec (.shr x y) s = .next t ∧ WritesRegAndFlag x ((s.reg x).toNat / 2) ((s.reg x).toNat % 2) s t) ∧
      (∃ t, exec (.shl x y) s = .next t ∧ WritesRegAndFlag x ((s.reg x).toNat * 2 % 256) ((s.reg x).toNat / 128) s t))

/-- RND CXNN: V[x] is the draw masked by nn; each execution draws once; nothing else changes (R86, R213). That the draw is the
free value Config.freeByte, whatever it is, applied to the counter draws, which goes up by one, is the model's (log entry 4). -/
def Obligations.RndMasksOneDraw : Prop :=
  ∀ (x : Nibble) (nn : Byte) (s : State), decodeWord (0xC#4 ++ x ++ nn) = .ok (.rnd x nn) ∧
    ∃ t, exec (.rnd x nn) s = .next t ∧ t.draws = s.draws + 1 ∧
      WritesReg x ((Config.freeByte s.draws).toNat &&& nn.toNat) s { t with draws := s.draws }

/-! ### Control transfer -/

/-- JP 1NNN: pc is nnn, nothing else changes (R233). -/
def Obligations.JpSetsPc : Prop :=
  ∀ (nnn : Addr12) (s : State), decodeWord (0x1#4 ++ nnn) = .ok (.jp nnn) ∧
    ∃ t, exec (.jp nnn) s = .next t ∧ t.pc.toNat = nnn.toNat ∧ t = { s with pc := t.pc }

/-- CALL 2NNN: with room on the stack it pushes pc (a + 2) and jumps; with STACK_CAPACITY entries it halts with StackOverflow,
info the address not pushed, the stack and pc as they were (R60, R234). -/
def Obligations.CallPushesReturnAddress : Prop :=
  ∀ (nnn : Addr12) (s : State), decodeWord (0x2#4 ++ nnn) = .ok (.call nnn) ∧
    (s.stack.length ≠ s.cfg.stackCapacity → ∃ t, exec (.call nnn) s = .next t ∧ t.stack = s.pc :: s.stack ∧
      t.pc.toNat = nnn.toNat ∧ t = { s with stack := t.stack, pc := t.pc }) ∧
    (s.stack.length = s.cfg.stackCapacity →
      exec (.call nnn) s = .next (haltedBy s .stackOverflow (s.pc - 2#16) (some (0x2#4 ++ nnn)) (some s.pc)))

/-- RET 00EE: pops the top entry into pc; on an empty stack it halts with StackUnderflow, no info, pc as it was. The word's x is
not examined (R61, R232, R136). -/
def Obligations.RetPopsReturnAddress : Prop :=
  ∀ (x : Nibble) (s : State), decodeWord (0x0#4 ++ x ++ 0xEE#8) = .ok (.ret x) ∧
    (∀ (a : Word) (rest : List Word), s.stack = a :: rest →
      ∃ t, exec (.ret x) s = .next t ∧ t.pc = a ∧ t.stack = rest ∧ t = { s with stack := t.stack, pc := t.pc }) ∧
    (s.stack = [] →
      exec (.ret x) s = .next (haltedBy s .stackUnderflow (s.pc - 2#16) (some (0x0#4 ++ x ++ 0xEE#8)) none))

/-- Call then Return restores the program counter saved at Call, for any nesting depth up to stack capacity: after CALLs, as
many RETs give back the saved program counters, the last saved first, and leave the stack as it was; no register is saved or
passed; at capacity one more CALL is fatal (R241). -/
def Obligations.NestedCallsReturnInOrder : Prop :=
  ∀ (calls : List (Word × Addr12)) (s : State), s.stack.length + calls.length ≤ s.cfg.stackCapacity →
    ∃ t u, callAll calls s = some t ∧ returnAll calls.length t = some ((calls.map Prod.fst).reverse, u) ∧
      u.stack = s.stack ∧ t.v = s.v ∧ u.v = s.v ∧ t.engine = s.engine ∧ u.engine = s.engine ∧
      (s.stack.length + calls.length = s.cfg.stackCapacity →
        ∀ nnn : Addr12, ∃ w, exec (.call nnn) t = .next w ∧ w.engine = .halted .stackOverflow ∧ w.stack = t.stack)

/-- The skips on registers and immediates (3XNN, 4XNN, 5XYN, 9XYN): pc moves on by 2 more exactly when the condition holds, n
is ignored, nothing else changes (R235, R236, R237, R239, R240). -/
def Obligations.SkipsAddTwoWhenConditionHolds : Prop :=
  ∀ (x y n : Nibble) (nn : Byte) (s : State),
    (decodeWord (0x3#4 ++ x ++ nn) = .ok (.seImm x nn) ∧ decodeWord (0x4#4 ++ x ++ nn) = .ok (.sneImm x nn) ∧
      decodeWord (0x5#4 ++ x ++ y ++ n) = .ok (.seReg x y n) ∧ decodeWord (0x9#4 ++ x ++ y ++ n) = .ok (.sneReg x y n)) ∧
    exec (.seImm x nn) s = .next (if s.reg x = nn then { s with pc := s.pc + 2#16 } else s) ∧
    exec (.sneImm x nn) s = .next (if s.reg x = nn then s else { s with pc := s.pc + 2#16 }) ∧
    exec (.seReg x y n) s = .next (if s.reg x = s.reg y then { s with pc := s.pc + 2#16 } else s) ∧
    exec (.sneReg x y n) s = .next (if s.reg x = s.reg y then s else { s with pc := s.pc + 2#16 })

/-- JP_OFF BNNN: in legacy mode pc is nnn + V0; in modern mode it is nnn + V[x], x = w[11:8], or nn + V[x], by
BXNN_MODERN_BASE; the sum is not truncated to 12 bits; nothing else changes (R238). -/
def Obligations.JpOffAddsRegisterToBase : Prop :=
  ∀ (x : Nibble) (nn : Byte) (s : State), decodeWord (0xB#4 ++ x ++ nn) = .ok (.jpOff (x ++ nn)) ∧
    ∃ t, exec (.jpOff (x ++ nn)) s = .next t ∧ t = { s with pc := t.pc } ∧
      (s.cfg.quirk = .legacy → t.pc.toNat = x.toNat * 256 + nn.toNat + (s.reg 0x0#4).toNat) ∧
      (s.cfg.quirk = .modern → s.cfg.bxnnBase = .nnn → t.pc.toNat = x.toNat * 256 + nn.toNat + (s.reg x).toNat) ∧
      (s.cfg.quirk = .modern → s.cfg.bxnnBase = .nn → t.pc.toNat = nn.toNat + (s.reg x).toNat)

/-! ### Index register and memory -/

/-- LD_I ANNN: I is nnn, nothing else changes (R261). -/
def Obligations.LdISetsIndex : Prop :=
  ∀ (nnn : Addr12) (s : State), decodeWord (0xA#4 ++ nnn) = .ok (.ldI nnn) ∧
    ∃ t, exec (.ldI nnn) s = .next t ∧ t.iReg.toNat = nnn.toNat ∧ t = { s with iReg := t.iReg }

/-- ADD_I FX1E: I is I + V[x] modulo 65536 and no flag is written; LD_F FX29: I is FONT_BASE + 5 · (V[x] & 0xF), for an
admitted FONT_BASE; nothing else changes (R262, R263). -/
def Obligations.IndexArithmeticWritesOnlyIndex : Prop :=
  ∀ (x : Nibble) (s : State),
    (decodeWord (0xF#4 ++ x ++ 0x1E#8) = .ok (.addI x) ∧
      ∃ t, exec (.addI x) s = .next t ∧ t.iReg.toNat = (s.iReg.toNat + (s.reg x).toNat) % 65536 ∧
        t = { s with iReg := t.iReg }) ∧
    (decodeWord (0xF#4 ++ x ++ 0x29#8) = .ok (.ldF x) ∧
      (s.cfg.fontBase + 80 ≤ 0x200 → ∃ t, exec (.ldF x) s = .next t ∧
        t.iReg.toNat = s.cfg.fontBase + 5 * ((s.reg x).toNat % 16) ∧ t = { s with iReg := t.iReg }))

/-- LD_B FX33: the hundreds, tens and ones of V[x] go to I, I + 1, I + 2, every other byte and everything else is as before;
with I + 2 ≥ 4096 it halts with MemoryOutOfRange before any write (R264, R106). -/
def Obligations.LdBStoresDecimalDigits : Prop :=
  ∀ (x : Nibble) (s : State), decodeWord (0xF#4 ++ x ++ 0x33#8) = .ok (.ldB x) ∧
    (s.iReg.toNat + 2 < 4096 → s.mem.wf s.cfg = true → ∃ t, exec (.ldB x) s = .next t ∧ t = { s with mem := t.mem } ∧
      (t.readByte s.iReg.toNat).toNat = (s.reg x).toNat / 100 ∧
      (t.readByte (s.iReg.toNat + 1)).toNat = (s.reg x).toNat / 10 % 10 ∧
      (t.readByte (s.iReg.toNat + 2)).toNat = (s.reg x).toNat % 10 ∧
      ∀ a : Nat, (a < s.iReg.toNat ∨ s.iReg.toNat + 2 < a) → t.readByte a = s.readByte a) ∧
    (4096 ≤ s.iReg.toNat + 2 → exec (.ldB x) s =
      .next (haltedBy s .memoryOutOfRange (s.pc - 2#16) (some (0xF#4 ++ x ++ 0x33#8))
        (some (BitVec.ofNat 16 (max s.iReg.toNat 4096)))))

/-- LD_MEM_VX FX55: byte I + k is V[k] for every k up to x, every other byte is as before; I is advanced by x + 1 modulo 65536
in legacy mode and kept in modern mode; with I + x ≥ 4096 it halts with MemoryOutOfRange before any write (R265, R106). -/
def Obligations.LdMemVxStoresRegisterRange : Prop :=
  ∀ (x : Nibble) (s : State), decodeWord (0xF#4 ++ x ++ 0x55#8) = .ok (.ldMemVx x) ∧
    (s.iReg.toNat + x.toNat < 4096 → s.mem.wf s.cfg = true → ∃ t, exec (.ldMemVx x) s = .next t ∧
      t = { s with mem := t.mem, iReg := t.iReg } ∧
      (∀ k : Nibble, k.toNat ≤ x.toNat → t.readByte (s.iReg.toNat + k.toNat) = s.reg k) ∧
      (∀ a : Nat, (a < s.iReg.toNat ∨ s.iReg.toNat + x.toNat < a) → t.readByte a = s.readByte a) ∧
      (s.cfg.quirk = .legacy → t.iReg.toNat = (s.iReg.toNat + x.toNat + 1) % 65536) ∧
      (s.cfg.quirk = .modern → t.iReg = s.iReg)) ∧
    (4096 ≤ s.iReg.toNat + x.toNat → exec (.ldMemVx x) s =
      .next (haltedBy s .memoryOutOfRange (s.pc - 2#16) (some (0xF#4 ++ x ++ 0x55#8))
        (some (BitVec.ofNat 16 (max s.iReg.toNat 4096)))))

/-- LD_VX_MEM FX65: V[k] is the byte at I + k for every k up to x, every other register and every byte of memory is as before;
I as for LD_MEM_VX; with I + x ≥ 4096 it halts with MemoryOutOfRange before any read (R266, R106). -/
def Obligations.LdVxMemLoadsRegisterRange : Prop :=
  ∀ (x : Nibble) (s : State), decodeWord (0xF#4 ++ x ++ 0x65#8) = .ok (.ldVxMem x) ∧
    (s.iReg.toNat + x.toNat < 4096 → ∃ t, exec (.ldVxMem x) s = .next t ∧
      t = { s with v := t.v, iReg := t.iReg } ∧
      (∀ k : Nibble, k.toNat ≤ x.toNat → t.reg k = s.readByte (s.iReg.toNat + k.toNat)) ∧
      (∀ k : Nibble, x.toNat < k.toNat → t.reg k = s.reg k) ∧ (∀ a : Nat, t.readByte a = s.readByte a) ∧
      (s.cfg.quirk = .legacy → t.iReg.toNat = (s.iReg.toNat + x.toNat + 1) % 65536) ∧
      (s.cfg.quirk = .modern → t.iReg = s.iReg)) ∧
    (4096 ≤ s.iReg.toNat + x.toNat → exec (.ldVxMem x) s =
      .next (haltedBy s .memoryOutOfRange (s.pc - 2#16) (some (0xF#4 ++ x ++ 0x65#8))
        (some (BitVec.ofNat 16 (max s.iReg.toNat 4096)))))

/-! ### Display -/

/-- CLS 00E0: every cell is false and changed is true, VF and everything else as before; the word's x is not examined (R294). -/
def Obligations.ClsClearsEveryCell : Prop :=
  ∀ (x : Nibble) (s : State), decodeWord (0x0#4 ++ x ++ 0xE0#8) = .ok (.cls x) ∧
    ∃ t, exec (.cls x) s = .next t ∧ (∀ c r : Nat, c < 64 → r < 32 → t.fb.get c r = false) ∧ t.changed = true ∧
      t = { s with fb := t.fb, changed := true, frameChanged := true }

/-- DRW DXYN: with every row inside memory, each cell is XORed with the sprite's bit that falls on it, bits beyond an edge are
dropped, VF is 1 exactly when a set cell was cleared, changed is true, and nothing else changes; with n > 0 and a row at or
above 4096 it halts with MemoryOutOfRange before any pixel or VF changes (R290, R291, R292, R295). -/
def Obligations.DrwXorsSpriteAndReportsCollision : Prop :=
  ∀ (x y n : Nibble) (s : State), decodeWord (0xD#4 ++ x ++ y ++ n) = .ok (.drw x y n) ∧
    ((n.toNat = 0 ∨ s.iReg.toNat + n.toNat ≤ 4096) → ∃ t, exec (.drw x y n) s = .next t ∧
      (∀ c r : Nat, c < 64 → r < 32 → t.fb.get c r =
        (s.fb.get c r ^^ spriteBit s ((s.reg x).toNat % 64) ((s.reg y).toNat % 32) n.toNat c r)) ∧
      (t.reg 0xF#4 = 1#8 ∨ t.reg 0xF#4 = 0#8) ∧
      (t.reg 0xF#4 = 1#8 ↔ ∃ c r : Nat, c < 64 ∧ r < 32 ∧ s.fb.get c r = true ∧
        spriteBit s ((s.reg x).toNat % 64) ((s.reg y).toNat % 32) n.toNat c r = true) ∧
      (∀ r : Nibble, r ≠ 0xF#4 → t.reg r = s.reg r) ∧
      t = { s with v := t.v, fb := t.fb, changed := true, frameChanged := true }) ∧
    (n.toNat ≠ 0 → 4096 < s.iReg.toNat + n.toNat → exec (.drw x y n) s =
      .next (haltedBy s .memoryOutOfRange (s.pc - 2#16) (some (0xD#4 ++ x ++ y ++ n))
        (some (BitVec.ofNat 16 (max s.iReg.toNat 4096)))))

/-- The framebuffer changes only through CLS and DRW and otherwise persists, over every step; and drawing the same sprite twice
at the same location restores it, with changed = true both times (R293). -/
def Obligations.FramebufferPersistsAndDrwIsSelfInverse : Prop :=
  (∀ s t : State, step s = .next t → t.fb ≠ s.fb → s.engine = .running ∧
    ∃ w i, isWordAtPc w s ∧ decodeWord w = .ok i ∧ draws i = true) ∧
  (∀ (x y x' y' n : Nibble) (s t u : State), (n.toNat = 0 ∨ s.iReg.toNat + n.toNat ≤ 4096) →
    exec (.drw x y n) s = .next t → u.fb = t.fb → u.iReg = s.iReg → u.mem = s.mem → u.cfg = s.cfg →
    (u.reg x').toNat % 64 = (s.reg x).toNat % 64 → (u.reg y').toNat % 32 = (s.reg y).toNat % 32 →
    ∃ w, exec (.drw x' y' n) u = .next w ∧ w.fb = s.fb ∧ t.changed = true ∧ w.changed = true)

/-! ### Keypad and timers -/

/-- SKP EX9E and SKNP EXA1: with V[x] ≤ 0xF the skip is taken when that key is down, or up; nothing else changes; from 0x10 on
they halt with KeyIndexOutOfRange, info V[x] (R310, R311, R312). -/
def Obligations.KeySkipsReadTheNamedKey : Prop :=
  ∀ (x : Nibble) (s : State),
    decodeWord (0xE#4 ++ x ++ 0x9E#8) = .ok (.skp x) ∧ decodeWord (0xE#4 ++ x ++ 0xA1#8) = .ok (.sknp x) ∧
    (∀ k : Nibble, (s.reg x).toNat = k.toNat →
      exec (.skp x) s = .next (if s.keyDown k then { s with pc := s.pc + 2#16 } else s) ∧
      exec (.sknp x) s = .next (if s.keyDown k then s else { s with pc := s.pc + 2#16 })) ∧
    (0x10 ≤ (s.reg x).toNat →
      exec (.skp x) s = .next (haltedBy s .keyIndexOutOfRange (s.pc - 2#16) (some (0xE#4 ++ x ++ 0x9E#8))
        (some (BitVec.ofNat 16 (s.reg x).toNat))) ∧
      exec (.sknp x) s = .next (haltedBy s .keyIndexOutOfRange (s.pc - 2#16) (some (0xE#4 ++ x ++ 0xA1#8))
        (some (BitVec.ofNat 16 (s.reg x).toNat))))

/-- FX07 copies DT to V[x], FX15 copies V[x] to DT, FX18 copies V[x] to ST; nothing else changes (R313, R314, R315). -/
def Obligations.TimerInstructionsCopy : Prop :=
  ∀ (x : Nibble) (s : State),
    (decodeWord (0xF#4 ++ x ++ 0x07#8) = .ok (.ldVxDt x) ∧
      ∃ t, exec (.ldVxDt x) s = .next t ∧ WritesReg x s.dt.toNat s t) ∧
    (decodeWord (0xF#4 ++ x ++ 0x15#8) = .ok (.ldDtVx x) ∧ exec (.ldDtVx x) s = .next { s with dt := s.reg x }) ∧
    (decodeWord (0xF#4 ++ x ++ 0x18#8) = .ok (.ldStVx x) ∧ exec (.ldStVx x) s = .next { s with st := s.reg x })

/-- LD_VX_K FX0A: the latch takes the keypad and the engine state is AWAITING_KEY(x); V[x], pc and everything else stay, and
the keypad is not tested, under either policy (R316). -/
def Obligations.LdVxKEntersTheWait : Prop :=
  ∀ (x : Nibble) (s : State), decodeWord (0xF#4 ++ x ++ 0x0A#8) = .ok (.ldVxK x) ∧
    ∃ t, exec (.ldVxK x) s = .next t ∧ t.engine = .awaitingKey x ∧
      (∀ k : Nibble, t.keyLatch[k.toNat]'(k.isLt) = s.keyDown k) ∧
      t = { s with engine := .awaitingKey x, keyLatch := t.keyLatch }

/-- withFetchWord does what its docstring says: the very next step runs the instruction of the word it stores (log entry 7).
It is the model's own operation. -/
def Obligations.FetchWordPlacesNextInstruction : Prop :=
  ∀ (s : State) (w : Nat) (i : Instr), s.cfg.strictSecondary = false → s.mem.wf s.cfg = true →
    decodeTableWord 16 w = some i → fetchable s →
    ∃ u, step (s.withFetchWord 16 w) = exec i u ∧ u.pc = s.pc + 2#16 ∧ u.v = s.v ∧ u.iReg = s.iReg ∧ u.stack = s.stack ∧
      u.fb = s.fb ∧ u.key = s.key ∧ u.dt = s.dt ∧ u.st = s.st ∧ u.cfg = s.cfg ∧
      ∀ a, a ≠ s.pc.toNat → a ≠ s.pc.toNat + 1 → u.readByte a = s.readByte a

/-- The end of the outer iteration in which the engine halts: with any periods left, its outputs are still sampled, and nothing
else changes. This is the model's reading (log entry 18): R345 and R367 stop the ticks of that iteration and do not say that a
halted process still shows its framebuffer or sounds its tone. -/
def Obligations.HaltedIterationStillSamplesOutputs : Prop :=
  ∀ s : State, s.phase = .inside → s.isHalted = true →
    step s = .next { s with phase := .between, framePort := s.frameChanged, audioPort := decide (0 < s.st.toNat) }
end

