-- ==== Sys2Proof/Laws/Decode.lean ====
section
/-! SUPPORT. The fields of a word put together from fields, a word from its own fields, the fields as numbers, and a word and its
two bytes. -/

namespace Sys2Proof

/-- Two appended fields as a number. -/
theorem toNat_append_eq {a b : Nat} (p : BitVec a) (q : BitVec b) : (p ++ q).toNat = p.toNat * 2 ^ b + q.toNat := by
  rw [BitVec.toNat_append, Nat.shiftLeft_eq, Nat.or_comm, Nat.mul_comm]
  rw [Nat.or_comm, Nat.two_pow_add_eq_or_of_lt q.isLt]

/-! ### The fields of a word of one of the three shapes -/

section
variable (t x y n : Nibble) (nn : Byte) (nnn : Addr12)

@[simp] theorem fieldType_nnn : fieldType (t ++ nnn) = t := by
  apply BitVec.eq_of_toNat_eq
  simp only [fieldType, toNat_append_eq, BitVec.extractLsb'_toNat, Nat.shiftRight_eq_div_pow]
  omega

@[simp] theorem fieldNNN_nnn : fieldNNN (t ++ nnn) = nnn := by
  apply BitVec.eq_of_toNat_eq
  simp only [fieldNNN, toNat_append_eq, BitVec.extractLsb'_toNat, Nat.shiftRight_eq_div_pow]
  omega

@[simp] theorem fieldNN_nnn : fieldNN (t ++ nnn) = lowByte nnn := by
  apply BitVec.eq_of_toNat_eq
  simp only [fieldNN, lowByte, toNat_append_eq, BitVec.extractLsb'_toNat, Nat.shiftRight_eq_div_pow]
  omega

@[simp] theorem fieldType_xnn : fieldType (t ++ x ++ nn) = t := by
  apply BitVec.eq_of_toNat_eq
  simp only [fieldType, toNat_append_eq, BitVec.extractLsb'_toNat, Nat.shiftRight_eq_div_pow]
  omega

@[simp] theorem fieldX_xnn : fieldX (t ++ x ++ nn) = x := by
  apply BitVec.eq_of_toNat_eq
  simp only [fieldX, toNat_append_eq, BitVec.extractLsb'_toNat, Nat.shiftRight_eq_div_pow]
  omega

@[simp] theorem fieldNN_xnn : fieldNN (t ++ x ++ nn) = nn := by
  apply BitVec.eq_of_toNat_eq
  simp only [fieldNN, toNat_append_eq, BitVec.extractLsb'_toNat, Nat.shiftRight_eq_div_pow]
  omega

@[simp] theorem fieldNNN_xnn : fieldNNN (t ++ x ++ nn) = x ++ nn := by
  apply BitVec.eq_of_toNat_eq
  simp only [fieldNNN, toNat_append_eq, BitVec.extractLsb'_toNat, Nat.shiftRight_eq_div_pow]
  omega

@[simp] theorem fieldType_xyn : fieldType (t ++ x ++ y ++ n) = t := by
  apply BitVec.eq_of_toNat_eq
  simp only [fieldType, toNat_append_eq, BitVec.extractLsb'_toNat, Nat.shiftRight_eq_div_pow]
  omega

@[simp] theorem fieldX_xyn : fieldX (t ++ x ++ y ++ n) = x := by
  apply BitVec.eq_of_toNat_eq
  simp only [fieldX, toNat_append_eq, BitVec.extractLsb'_toNat, Nat.shiftRight_eq_div_pow]
  omega

@[simp] theorem fieldY_xyn : fieldY (t ++ x ++ y ++ n) = y := by
  apply BitVec.eq_of_toNat_eq
  simp only [fieldY, toNat_append_eq, BitVec.extractLsb'_toNat, Nat.shiftRight_eq_div_pow]
  omega

@[simp] theorem fieldN_xyn : fieldN (t ++ x ++ y ++ n) = n := by
  apply BitVec.eq_of_toNat_eq
  simp only [fieldN, toNat_append_eq, BitVec.extractLsb'_toNat, Nat.shiftRight_eq_div_pow]
  omega

end

/-! ### A word from its own fields -/

theorem word_of_type_nnn (w : Word) : fieldType w ++ fieldNNN w = w := by
  apply BitVec.eq_of_toNat_eq
  simp only [fieldType, fieldNNN, toNat_append_eq, BitVec.extractLsb'_toNat, Nat.shiftRight_eq_div_pow]
  omega

theorem word_of_type_x_nn (w : Word) : fieldType w ++ fieldX w ++ fieldNN w = w := by
  apply BitVec.eq_of_toNat_eq
  simp only [fieldType, fieldX, fieldNN, toNat_append_eq, BitVec.extractLsb'_toNat, Nat.shiftRight_eq_div_pow]
  omega

theorem word_of_type_x_y_n (w : Word) : fieldType w ++ fieldX w ++ fieldY w ++ fieldN w = w := by
  apply BitVec.eq_of_toNat_eq
  simp only [fieldType, fieldX, fieldY, fieldN, toNat_append_eq, BitVec.extractLsb'_toNat, Nat.shiftRight_eq_div_pow]
  omega

theorem lowByte_fieldNNN (w : Word) : lowByte (fieldNNN w) = fieldNN w := by
  apply BitVec.eq_of_toNat_eq
  simp only [lowByte, fieldNNN, fieldNN, BitVec.extractLsb'_toNat, Nat.shiftRight_eq_div_pow]
  omega

/-! ### The fields as numbers -/

theorem toNat_fieldType (w : Word) : (fieldType w).toNat = w.toNat / 4096 := by
  have h := w.isLt
  simp [fieldType, Nat.shiftRight_eq_div_pow]; omega

theorem toNat_fieldX (w : Word) : (fieldX w).toNat = w.toNat / 256 % 16 := by
  simp [fieldX, Nat.shiftRight_eq_div_pow]

theorem toNat_fieldY (w : Word) : (fieldY w).toNat = w.toNat / 16 % 16 := by
  simp [fieldY, Nat.shiftRight_eq_div_pow]

theorem toNat_fieldN (w : Word) : (fieldN w).toNat = w.toNat % 16 := by
  simp [fieldN]

theorem toNat_fieldNN (w : Word) : (fieldNN w).toNat = w.toNat % 256 := by
  simp [fieldNN]

theorem toNat_lowByte (nnn : Addr12) : (lowByte nnn).toNat = nnn.toNat % 256 := by
  simp [lowByte]

/-! ### A word and its bytes -/

@[simp] theorem wordOfBytes_bytesOf (w : Word) : wordOfBytes (highByteOf w) (lowByteOf w) = w := by
  apply BitVec.eq_of_toNat_eq
  simp only [wordOfBytes, highByteOf, lowByteOf, toNat_append_eq, BitVec.extractLsb'_toNat, Nat.shiftRight_eq_div_pow]
  omega

theorem toNat_wordOfBytes (hi lo : Byte) : (wordOfBytes hi lo).toNat = hi.toNat * 256 + lo.toNat :=
  toNat_append_eq hi lo

/-! ### The primary dispatch, type by type (R135) -/

theorem decodeWord_type0 {w : Word} (h : fieldType w = 0x0#4) : decodeWord w = decodeType0 w := by
  simp [decodeWord, h]

theorem decodeWord_type1 {w : Word} (h : fieldType w = 0x1#4) : decodeWord w = .ok (.jp (fieldNNN w)) := by
  simp [decodeWord, h]

theorem decodeWord_type2 {w : Word} (h : fieldType w = 0x2#4) : decodeWord w = .ok (.call (fieldNNN w)) := by
  simp [decodeWord, h]

theorem decodeWord_type3 {w : Word} (h : fieldType w = 0x3#4) : decodeWord w = .ok (.seImm (fieldX w) (fieldNN w)) := by
  simp [decodeWord, h]

theorem decodeWord_type4 {w : Word} (h : fieldType w = 0x4#4) : decodeWord w = .ok (.sneImm (fieldX w) (fieldNN w)) := by
  simp [decodeWord, h]

theorem decodeWord_type5 {w : Word} (h : fieldType w = 0x5#4) : decodeWord w = .ok (.seReg (fieldX w) (fieldY w) (fieldN w)) := by
  simp [decodeWord, h]

theorem decodeWord_type6 {w : Word} (h : fieldType w = 0x6#4) : decodeWord w = .ok (.ldImm (fieldX w) (fieldNN w)) := by
  simp [decodeWord, h]

theorem decodeWord_type7 {w : Word} (h : fieldType w = 0x7#4) : decodeWord w = .ok (.addImm (fieldX w) (fieldNN w)) := by
  simp [decodeWord, h]

theorem decodeWord_type8 {w : Word} (h : fieldType w = 0x8#4) : decodeWord w = decodeType8 w := by
  simp [decodeWord, h]

theorem decodeWord_type9 {w : Word} (h : fieldType w = 0x9#4) : decodeWord w = .ok (.sneReg (fieldX w) (fieldY w) (fieldN w)) := by
  simp [decodeWord, h]

theorem decodeWord_typeA {w : Word} (h : fieldType w = 0xA#4) : decodeWord w = .ok (.ldI (fieldNNN w)) := by
  simp [decodeWord, h]

theorem decodeWord_typeB {w : Word} (h : fieldType w = 0xB#4) : decodeWord w = .ok (.jpOff (fieldNNN w)) := by
  simp [decodeWord, h]

theorem decodeWord_typeC {w : Word} (h : fieldType w = 0xC#4) : decodeWord w = .ok (.rnd (fieldX w) (fieldNN w)) := by
  simp [decodeWord, h]

theorem decodeWord_typeD {w : Word} (h : fieldType w = 0xD#4) : decodeWord w = .ok (.drw (fieldX w) (fieldY w) (fieldN w)) := by
  simp [decodeWord, h]

theorem decodeWord_typeE {w : Word} (h : fieldType w = 0xE#4) : decodeWord w = decodeTypeE w := by
  simp [decodeWord, h]

theorem decodeWord_typeF {w : Word} (h : fieldType w = 0xF#4) : decodeWord w = decodeTypeF w := by
  simp [decodeWord, h]

/-- The sixteen types are all there are. -/
theorem nibble_cases (t : Nibble) :
    t = 0x0#4 ∨ t = 0x1#4 ∨ t = 0x2#4 ∨ t = 0x3#4 ∨ t = 0x4#4 ∨ t = 0x5#4 ∨ t = 0x6#4 ∨ t = 0x7#4 ∨
    t = 0x8#4 ∨ t = 0x9#4 ∨ t = 0xA#4 ∨ t = 0xB#4 ∨ t = 0xC#4 ∨ t = 0xD#4 ∨ t = 0xE#4 ∨ t = 0xF#4 := by
  revert t; decide

end Sys2Proof
end

