-- ==== Sys2Proof/Laws/State.lean ====
section
/-! SUPPORT. One lemma for each field of State and each named update of it, true by rfl, so that no later proof unfolds a record
update. -/

namespace Sys2Proof.Machine

variable (s : State)

/-! ### setReg -/

@[simp] theorem State.setReg_cfg (x : Nibble) (b : Byte) : (s.setReg x b).cfg = s.cfg := rfl
@[simp] theorem State.setReg_v (x : Nibble) (b : Byte) : (s.setReg x b).v = s.v.set x.toNat b x.isLt := rfl
@[simp] theorem State.setReg_iReg (x : Nibble) (b : Byte) : (s.setReg x b).iReg = s.iReg := rfl
@[simp] theorem State.setReg_pc (x : Nibble) (b : Byte) : (s.setReg x b).pc = s.pc := rfl
@[simp] theorem State.setReg_dt (x : Nibble) (b : Byte) : (s.setReg x b).dt = s.dt := rfl
@[simp] theorem State.setReg_st (x : Nibble) (b : Byte) : (s.setReg x b).st = s.st := rfl
@[simp] theorem State.setReg_stack (x : Nibble) (b : Byte) : (s.setReg x b).stack = s.stack := rfl
@[simp] theorem State.setReg_mem (x : Nibble) (b : Byte) : (s.setReg x b).mem = s.mem := rfl
@[simp] theorem State.setReg_key (x : Nibble) (b : Byte) : (s.setReg x b).key = s.key := rfl
@[simp] theorem State.setReg_fb (x : Nibble) (b : Byte) : (s.setReg x b).fb = s.fb := rfl
@[simp] theorem State.setReg_engine (x : Nibble) (b : Byte) : (s.setReg x b).engine = s.engine := rfl
@[simp] theorem State.setReg_keyLatch (x : Nibble) (b : Byte) : (s.setReg x b).keyLatch = s.keyLatch := rfl
@[simp] theorem State.setReg_accI (x : Nibble) (b : Byte) : (s.setReg x b).accI = s.accI := rfl
@[simp] theorem State.setReg_accT (x : Nibble) (b : Byte) : (s.setReg x b).accT = s.accT := rfl
@[simp] theorem State.setReg_faultRec (x : Nibble) (b : Byte) : (s.setReg x b).faultRec = s.faultRec := rfl
@[simp] theorem State.setReg_running (x : Nibble) (b : Byte) : (s.setReg x b).running = s.running := rfl
@[simp] theorem State.setReg_changed (x : Nibble) (b : Byte) : (s.setReg x b).changed = s.changed := rfl
@[simp] theorem State.setReg_unknownOpcode (x : Nibble) (b : Byte) : (s.setReg x b).unknownOpcode = s.unknownOpcode := rfl
@[simp] theorem State.setReg_frameChanged (x : Nibble) (b : Byte) : (s.setReg x b).frameChanged = s.frameChanged := rfl
@[simp] theorem State.setReg_framePort (x : Nibble) (b : Byte) : (s.setReg x b).framePort = s.framePort := rfl
@[simp] theorem State.setReg_audioPort (x : Nibble) (b : Byte) : (s.setReg x b).audioPort = s.audioPort := rfl
@[simp] theorem State.setReg_phase (x : Nibble) (b : Byte) : (s.setReg x b).phase = s.phase := rfl
@[simp] theorem State.setReg_inputs (x : Nibble) (b : Byte) : (s.setReg x b).inputs = s.inputs := rfl
@[simp] theorem State.setReg_iterations (x : Nibble) (b : Byte) : (s.setReg x b).iterations = s.iterations := rfl
@[simp] theorem State.setReg_draws (x : Nibble) (b : Byte) : (s.setReg x b).draws = s.draws := rfl

/-! ### setI -/

@[simp] theorem State.setI_cfg (a : Word) : (s.setI a).cfg = s.cfg := rfl
@[simp] theorem State.setI_v (a : Word) : (s.setI a).v = s.v := rfl
@[simp] theorem State.setI_iReg (a : Word) : (s.setI a).iReg = a := rfl
@[simp] theorem State.setI_pc (a : Word) : (s.setI a).pc = s.pc := rfl
@[simp] theorem State.setI_dt (a : Word) : (s.setI a).dt = s.dt := rfl
@[simp] theorem State.setI_st (a : Word) : (s.setI a).st = s.st := rfl
@[simp] theorem State.setI_stack (a : Word) : (s.setI a).stack = s.stack := rfl
@[simp] theorem State.setI_mem (a : Word) : (s.setI a).mem = s.mem := rfl
@[simp] theorem State.setI_key (a : Word) : (s.setI a).key = s.key := rfl
@[simp] theorem State.setI_fb (a : Word) : (s.setI a).fb = s.fb := rfl
@[simp] theorem State.setI_engine (a : Word) : (s.setI a).engine = s.engine := rfl
@[simp] theorem State.setI_keyLatch (a : Word) : (s.setI a).keyLatch = s.keyLatch := rfl
@[simp] theorem State.setI_accI (a : Word) : (s.setI a).accI = s.accI := rfl
@[simp] theorem State.setI_accT (a : Word) : (s.setI a).accT = s.accT := rfl
@[simp] theorem State.setI_faultRec (a : Word) : (s.setI a).faultRec = s.faultRec := rfl
@[simp] theorem State.setI_running (a : Word) : (s.setI a).running = s.running := rfl
@[simp] theorem State.setI_changed (a : Word) : (s.setI a).changed = s.changed := rfl
@[simp] theorem State.setI_unknownOpcode (a : Word) : (s.setI a).unknownOpcode = s.unknownOpcode := rfl
@[simp] theorem State.setI_frameChanged (a : Word) : (s.setI a).frameChanged = s.frameChanged := rfl
@[simp] theorem State.setI_framePort (a : Word) : (s.setI a).framePort = s.framePort := rfl
@[simp] theorem State.setI_audioPort (a : Word) : (s.setI a).audioPort = s.audioPort := rfl
@[simp] theorem State.setI_phase (a : Word) : (s.setI a).phase = s.phase := rfl
@[simp] theorem State.setI_inputs (a : Word) : (s.setI a).inputs = s.inputs := rfl
@[simp] theorem State.setI_iterations (a : Word) : (s.setI a).iterations = s.iterations := rfl
@[simp] theorem State.setI_draws (a : Word) : (s.setI a).draws = s.draws := rfl

/-! ### setPc -/

@[simp] theorem State.setPc_cfg (a : Word) : (s.setPc a).cfg = s.cfg := rfl
@[simp] theorem State.setPc_v (a : Word) : (s.setPc a).v = s.v := rfl
@[simp] theorem State.setPc_iReg (a : Word) : (s.setPc a).iReg = s.iReg := rfl
@[simp] theorem State.setPc_pc (a : Word) : (s.setPc a).pc = a := rfl
@[simp] theorem State.setPc_dt (a : Word) : (s.setPc a).dt = s.dt := rfl
@[simp] theorem State.setPc_st (a : Word) : (s.setPc a).st = s.st := rfl
@[simp] theorem State.setPc_stack (a : Word) : (s.setPc a).stack = s.stack := rfl
@[simp] theorem State.setPc_mem (a : Word) : (s.setPc a).mem = s.mem := rfl
@[simp] theorem State.setPc_key (a : Word) : (s.setPc a).key = s.key := rfl
@[simp] theorem State.setPc_fb (a : Word) : (s.setPc a).fb = s.fb := rfl
@[simp] theorem State.setPc_engine (a : Word) : (s.setPc a).engine = s.engine := rfl
@[simp] theorem State.setPc_keyLatch (a : Word) : (s.setPc a).keyLatch = s.keyLatch := rfl
@[simp] theorem State.setPc_accI (a : Word) : (s.setPc a).accI = s.accI := rfl
@[simp] theorem State.setPc_accT (a : Word) : (s.setPc a).accT = s.accT := rfl
@[simp] theorem State.setPc_faultRec (a : Word) : (s.setPc a).faultRec = s.faultRec := rfl
@[simp] theorem State.setPc_running (a : Word) : (s.setPc a).running = s.running := rfl
@[simp] theorem State.setPc_changed (a : Word) : (s.setPc a).changed = s.changed := rfl
@[simp] theorem State.setPc_unknownOpcode (a : Word) : (s.setPc a).unknownOpcode = s.unknownOpcode := rfl
@[simp] theorem State.setPc_frameChanged (a : Word) : (s.setPc a).frameChanged = s.frameChanged := rfl
@[simp] theorem State.setPc_framePort (a : Word) : (s.setPc a).framePort = s.framePort := rfl
@[simp] theorem State.setPc_audioPort (a : Word) : (s.setPc a).audioPort = s.audioPort := rfl
@[simp] theorem State.setPc_phase (a : Word) : (s.setPc a).phase = s.phase := rfl
@[simp] theorem State.setPc_inputs (a : Word) : (s.setPc a).inputs = s.inputs := rfl
@[simp] theorem State.setPc_iterations (a : Word) : (s.setPc a).iterations = s.iterations := rfl
@[simp] theorem State.setPc_draws (a : Word) : (s.setPc a).draws = s.draws := rfl

/-! ### skipNext -/

@[simp] theorem State.skipNext_cfg : (s.skipNext).cfg = s.cfg := rfl
@[simp] theorem State.skipNext_v : (s.skipNext).v = s.v := rfl
@[simp] theorem State.skipNext_iReg : (s.skipNext).iReg = s.iReg := rfl
@[simp] theorem State.skipNext_pc : (s.skipNext).pc = s.pc + 2#16 := rfl
@[simp] theorem State.skipNext_dt : (s.skipNext).dt = s.dt := rfl
@[simp] theorem State.skipNext_st : (s.skipNext).st = s.st := rfl
@[simp] theorem State.skipNext_stack : (s.skipNext).stack = s.stack := rfl
@[simp] theorem State.skipNext_mem : (s.skipNext).mem = s.mem := rfl
@[simp] theorem State.skipNext_key : (s.skipNext).key = s.key := rfl
@[simp] theorem State.skipNext_fb : (s.skipNext).fb = s.fb := rfl
@[simp] theorem State.skipNext_engine : (s.skipNext).engine = s.engine := rfl
@[simp] theorem State.skipNext_keyLatch : (s.skipNext).keyLatch = s.keyLatch := rfl
@[simp] theorem State.skipNext_accI : (s.skipNext).accI = s.accI := rfl
@[simp] theorem State.skipNext_accT : (s.skipNext).accT = s.accT := rfl
@[simp] theorem State.skipNext_faultRec : (s.skipNext).faultRec = s.faultRec := rfl
@[simp] theorem State.skipNext_running : (s.skipNext).running = s.running := rfl
@[simp] theorem State.skipNext_changed : (s.skipNext).changed = s.changed := rfl
@[simp] theorem State.skipNext_unknownOpcode : (s.skipNext).unknownOpcode = s.unknownOpcode := rfl
@[simp] theorem State.skipNext_frameChanged : (s.skipNext).frameChanged = s.frameChanged := rfl
@[simp] theorem State.skipNext_framePort : (s.skipNext).framePort = s.framePort := rfl
@[simp] theorem State.skipNext_audioPort : (s.skipNext).audioPort = s.audioPort := rfl
@[simp] theorem State.skipNext_phase : (s.skipNext).phase = s.phase := rfl
@[simp] theorem State.skipNext_inputs : (s.skipNext).inputs = s.inputs := rfl
@[simp] theorem State.skipNext_iterations : (s.skipNext).iterations = s.iterations := rfl
@[simp] theorem State.skipNext_draws : (s.skipNext).draws = s.draws := rfl

/-! ### advancePc -/

@[simp] theorem State.advancePc_cfg : (s.advancePc).cfg = s.cfg := rfl
@[simp] theorem State.advancePc_v : (s.advancePc).v = s.v := rfl
@[simp] theorem State.advancePc_iReg : (s.advancePc).iReg = s.iReg := rfl
@[simp] theorem State.advancePc_pc : (s.advancePc).pc = s.pc + 2#16 := rfl
@[simp] theorem State.advancePc_dt : (s.advancePc).dt = s.dt := rfl
@[simp] theorem State.advancePc_st : (s.advancePc).st = s.st := rfl
@[simp] theorem State.advancePc_stack : (s.advancePc).stack = s.stack := rfl
@[simp] theorem State.advancePc_mem : (s.advancePc).mem = s.mem := rfl
@[simp] theorem State.advancePc_key : (s.advancePc).key = s.key := rfl
@[simp] theorem State.advancePc_fb : (s.advancePc).fb = s.fb := rfl
@[simp] theorem State.advancePc_engine : (s.advancePc).engine = s.engine := rfl
@[simp] theorem State.advancePc_keyLatch : (s.advancePc).keyLatch = s.keyLatch := rfl
@[simp] theorem State.advancePc_accI : (s.advancePc).accI = s.accI := rfl
@[simp] theorem State.advancePc_accT : (s.advancePc).accT = s.accT := rfl
@[simp] theorem State.advancePc_faultRec : (s.advancePc).faultRec = s.faultRec := rfl
@[simp] theorem State.advancePc_running : (s.advancePc).running = s.running := rfl
@[simp] theorem State.advancePc_changed : (s.advancePc).changed = s.changed := rfl
@[simp] theorem State.advancePc_unknownOpcode : (s.advancePc).unknownOpcode = s.unknownOpcode := rfl
@[simp] theorem State.advancePc_frameChanged : (s.advancePc).frameChanged = s.frameChanged := rfl
@[simp] theorem State.advancePc_framePort : (s.advancePc).framePort = s.framePort := rfl
@[simp] theorem State.advancePc_audioPort : (s.advancePc).audioPort = s.audioPort := rfl
@[simp] theorem State.advancePc_phase : (s.advancePc).phase = s.phase := rfl
@[simp] theorem State.advancePc_inputs : (s.advancePc).inputs = s.inputs := rfl
@[simp] theorem State.advancePc_iterations : (s.advancePc).iterations = s.iterations := rfl
@[simp] theorem State.advancePc_draws : (s.advancePc).draws = s.draws := rfl

/-! ### writeBytes -/

@[simp] theorem State.writeBytes_cfg (a : Nat) (bs : List Byte) : (s.writeBytes a bs).cfg = s.cfg := rfl
@[simp] theorem State.writeBytes_v (a : Nat) (bs : List Byte) : (s.writeBytes a bs).v = s.v := rfl
@[simp] theorem State.writeBytes_iReg (a : Nat) (bs : List Byte) : (s.writeBytes a bs).iReg = s.iReg := rfl
@[simp] theorem State.writeBytes_pc (a : Nat) (bs : List Byte) : (s.writeBytes a bs).pc = s.pc := rfl
@[simp] theorem State.writeBytes_dt (a : Nat) (bs : List Byte) : (s.writeBytes a bs).dt = s.dt := rfl
@[simp] theorem State.writeBytes_st (a : Nat) (bs : List Byte) : (s.writeBytes a bs).st = s.st := rfl
@[simp] theorem State.writeBytes_stack (a : Nat) (bs : List Byte) : (s.writeBytes a bs).stack = s.stack := rfl
@[simp] theorem State.writeBytes_mem (a : Nat) (bs : List Byte) : (s.writeBytes a bs).mem = s.mem.writeList s.cfg a bs := rfl
@[simp] theorem State.writeBytes_key (a : Nat) (bs : List Byte) : (s.writeBytes a bs).key = s.key := rfl
@[simp] theorem State.writeBytes_fb (a : Nat) (bs : List Byte) : (s.writeBytes a bs).fb = s.fb := rfl
@[simp] theorem State.writeBytes_engine (a : Nat) (bs : List Byte) : (s.writeBytes a bs).engine = s.engine := rfl
@[simp] theorem State.writeBytes_keyLatch (a : Nat) (bs : List Byte) : (s.writeBytes a bs).keyLatch = s.keyLatch := rfl
@[simp] theorem State.writeBytes_accI (a : Nat) (bs : List Byte) : (s.writeBytes a bs).accI = s.accI := rfl
@[simp] theorem State.writeBytes_accT (a : Nat) (bs : List Byte) : (s.writeBytes a bs).accT = s.accT := rfl
@[simp] theorem State.writeBytes_faultRec (a : Nat) (bs : List Byte) : (s.writeBytes a bs).faultRec = s.faultRec := rfl
@[simp] theorem State.writeBytes_running (a : Nat) (bs : List Byte) : (s.writeBytes a bs).running = s.running := rfl
@[simp] theorem State.writeBytes_changed (a : Nat) (bs : List Byte) : (s.writeBytes a bs).changed = s.changed := rfl
@[simp] theorem State.writeBytes_unknownOpcode (a : Nat) (bs : List Byte) : (s.writeBytes a bs).unknownOpcode = s.unknownOpcode := rfl
@[simp] theorem State.writeBytes_frameChanged (a : Nat) (bs : List Byte) : (s.writeBytes a bs).frameChanged = s.frameChanged := rfl
@[simp] theorem State.writeBytes_framePort (a : Nat) (bs : List Byte) : (s.writeBytes a bs).framePort = s.framePort := rfl
@[simp] theorem State.writeBytes_audioPort (a : Nat) (bs : List Byte) : (s.writeBytes a bs).audioPort = s.audioPort := rfl
@[simp] theorem State.writeBytes_phase (a : Nat) (bs : List Byte) : (s.writeBytes a bs).phase = s.phase := rfl
@[simp] theorem State.writeBytes_inputs (a : Nat) (bs : List Byte) : (s.writeBytes a bs).inputs = s.inputs := rfl
@[simp] theorem State.writeBytes_iterations (a : Nat) (bs : List Byte) : (s.writeBytes a bs).iterations = s.iterations := rfl
@[simp] theorem State.writeBytes_draws (a : Nat) (bs : List Byte) : (s.writeBytes a bs).draws = s.draws := rfl

/-! ### present -/

@[simp] theorem State.present_cfg (f : Framebuffer) : (s.present f).cfg = s.cfg := rfl
@[simp] theorem State.present_v (f : Framebuffer) : (s.present f).v = s.v := rfl
@[simp] theorem State.present_iReg (f : Framebuffer) : (s.present f).iReg = s.iReg := rfl
@[simp] theorem State.present_pc (f : Framebuffer) : (s.present f).pc = s.pc := rfl
@[simp] theorem State.present_dt (f : Framebuffer) : (s.present f).dt = s.dt := rfl
@[simp] theorem State.present_st (f : Framebuffer) : (s.present f).st = s.st := rfl
@[simp] theorem State.present_stack (f : Framebuffer) : (s.present f).stack = s.stack := rfl
@[simp] theorem State.present_mem (f : Framebuffer) : (s.present f).mem = s.mem := rfl
@[simp] theorem State.present_key (f : Framebuffer) : (s.present f).key = s.key := rfl
@[simp] theorem State.present_fb (f : Framebuffer) : (s.present f).fb = f := rfl
@[simp] theorem State.present_engine (f : Framebuffer) : (s.present f).engine = s.engine := rfl
@[simp] theorem State.present_keyLatch (f : Framebuffer) : (s.present f).keyLatch = s.keyLatch := rfl
@[simp] theorem State.present_accI (f : Framebuffer) : (s.present f).accI = s.accI := rfl
@[simp] theorem State.present_accT (f : Framebuffer) : (s.present f).accT = s.accT := rfl
@[simp] theorem State.present_faultRec (f : Framebuffer) : (s.present f).faultRec = s.faultRec := rfl
@[simp] theorem State.present_running (f : Framebuffer) : (s.present f).running = s.running := rfl
@[simp] theorem State.present_changed (f : Framebuffer) : (s.present f).changed = true := rfl
@[simp] theorem State.present_unknownOpcode (f : Framebuffer) : (s.present f).unknownOpcode = s.unknownOpcode := rfl
@[simp] theorem State.present_frameChanged (f : Framebuffer) : (s.present f).frameChanged = true := rfl
@[simp] theorem State.present_framePort (f : Framebuffer) : (s.present f).framePort = s.framePort := rfl
@[simp] theorem State.present_audioPort (f : Framebuffer) : (s.present f).audioPort = s.audioPort := rfl
@[simp] theorem State.present_phase (f : Framebuffer) : (s.present f).phase = s.phase := rfl
@[simp] theorem State.present_inputs (f : Framebuffer) : (s.present f).inputs = s.inputs := rfl
@[simp] theorem State.present_iterations (f : Framebuffer) : (s.present f).iterations = s.iterations := rfl
@[simp] theorem State.present_draws (f : Framebuffer) : (s.present f).draws = s.draws := rfl

/-! ### clearOutputs -/

@[simp] theorem State.clearOutputs_cfg : (s.clearOutputs).cfg = s.cfg := rfl
@[simp] theorem State.clearOutputs_v : (s.clearOutputs).v = s.v := rfl
@[simp] theorem State.clearOutputs_iReg : (s.clearOutputs).iReg = s.iReg := rfl
@[simp] theorem State.clearOutputs_pc : (s.clearOutputs).pc = s.pc := rfl
@[simp] theorem State.clearOutputs_dt : (s.clearOutputs).dt = s.dt := rfl
@[simp] theorem State.clearOutputs_st : (s.clearOutputs).st = s.st := rfl
@[simp] theorem State.clearOutputs_stack : (s.clearOutputs).stack = s.stack := rfl
@[simp] theorem State.clearOutputs_mem : (s.clearOutputs).mem = s.mem := rfl
@[simp] theorem State.clearOutputs_key : (s.clearOutputs).key = s.key := rfl
@[simp] theorem State.clearOutputs_fb : (s.clearOutputs).fb = s.fb := rfl
@[simp] theorem State.clearOutputs_engine : (s.clearOutputs).engine = s.engine := rfl
@[simp] theorem State.clearOutputs_keyLatch : (s.clearOutputs).keyLatch = s.keyLatch := rfl
@[simp] theorem State.clearOutputs_accI : (s.clearOutputs).accI = s.accI := rfl
@[simp] theorem State.clearOutputs_accT : (s.clearOutputs).accT = s.accT := rfl
@[simp] theorem State.clearOutputs_faultRec : (s.clearOutputs).faultRec = s.faultRec := rfl
@[simp] theorem State.clearOutputs_running : (s.clearOutputs).running = s.running := rfl
@[simp] theorem State.clearOutputs_changed : (s.clearOutputs).changed = false := rfl
@[simp] theorem State.clearOutputs_unknownOpcode : (s.clearOutputs).unknownOpcode = none := rfl
@[simp] theorem State.clearOutputs_frameChanged : (s.clearOutputs).frameChanged = s.frameChanged := rfl
@[simp] theorem State.clearOutputs_framePort : (s.clearOutputs).framePort = s.framePort := rfl
@[simp] theorem State.clearOutputs_audioPort : (s.clearOutputs).audioPort = s.audioPort := rfl
@[simp] theorem State.clearOutputs_phase : (s.clearOutputs).phase = s.phase := rfl
@[simp] theorem State.clearOutputs_inputs : (s.clearOutputs).inputs = s.inputs := rfl
@[simp] theorem State.clearOutputs_iterations : (s.clearOutputs).iterations = s.iterations := rfl
@[simp] theorem State.clearOutputs_draws : (s.clearOutputs).draws = s.draws := rfl

/-! ### emitUnknown -/

@[simp] theorem State.emitUnknown_cfg (a w : Word) : (s.emitUnknown a w).cfg = s.cfg := rfl
@[simp] theorem State.emitUnknown_v (a w : Word) : (s.emitUnknown a w).v = s.v := rfl
@[simp] theorem State.emitUnknown_iReg (a w : Word) : (s.emitUnknown a w).iReg = s.iReg := rfl
@[simp] theorem State.emitUnknown_pc (a w : Word) : (s.emitUnknown a w).pc = s.pc := rfl
@[simp] theorem State.emitUnknown_dt (a w : Word) : (s.emitUnknown a w).dt = s.dt := rfl
@[simp] theorem State.emitUnknown_st (a w : Word) : (s.emitUnknown a w).st = s.st := rfl
@[simp] theorem State.emitUnknown_stack (a w : Word) : (s.emitUnknown a w).stack = s.stack := rfl
@[simp] theorem State.emitUnknown_mem (a w : Word) : (s.emitUnknown a w).mem = s.mem := rfl
@[simp] theorem State.emitUnknown_key (a w : Word) : (s.emitUnknown a w).key = s.key := rfl
@[simp] theorem State.emitUnknown_fb (a w : Word) : (s.emitUnknown a w).fb = s.fb := rfl
@[simp] theorem State.emitUnknown_engine (a w : Word) : (s.emitUnknown a w).engine = s.engine := rfl
@[simp] theorem State.emitUnknown_keyLatch (a w : Word) : (s.emitUnknown a w).keyLatch = s.keyLatch := rfl
@[simp] theorem State.emitUnknown_accI (a w : Word) : (s.emitUnknown a w).accI = s.accI := rfl
@[simp] theorem State.emitUnknown_accT (a w : Word) : (s.emitUnknown a w).accT = s.accT := rfl
@[simp] theorem State.emitUnknown_faultRec (a w : Word) : (s.emitUnknown a w).faultRec = s.faultRec := rfl
@[simp] theorem State.emitUnknown_running (a w : Word) : (s.emitUnknown a w).running = s.running := rfl
@[simp] theorem State.emitUnknown_changed (a w : Word) : (s.emitUnknown a w).changed = s.changed := rfl
@[simp] theorem State.emitUnknown_unknownOpcode (a w : Word) : (s.emitUnknown a w).unknownOpcode = some ⟨a, w⟩ := rfl
@[simp] theorem State.emitUnknown_frameChanged (a w : Word) : (s.emitUnknown a w).frameChanged = s.frameChanged := rfl
@[simp] theorem State.emitUnknown_framePort (a w : Word) : (s.emitUnknown a w).framePort = s.framePort := rfl
@[simp] theorem State.emitUnknown_audioPort (a w : Word) : (s.emitUnknown a w).audioPort = s.audioPort := rfl
@[simp] theorem State.emitUnknown_phase (a w : Word) : (s.emitUnknown a w).phase = s.phase := rfl
@[simp] theorem State.emitUnknown_inputs (a w : Word) : (s.emitUnknown a w).inputs = s.inputs := rfl
@[simp] theorem State.emitUnknown_iterations (a w : Word) : (s.emitUnknown a w).iterations = s.iterations := rfl
@[simp] theorem State.emitUnknown_draws (a w : Word) : (s.emitUnknown a w).draws = s.draws := rfl

/-! ### raise -/

@[simp] theorem State.raise_cfg (c : Cause) (a : Word) (w n : Option Word) : (s.raise c a w n).cfg = s.cfg := rfl
@[simp] theorem State.raise_v (c : Cause) (a : Word) (w n : Option Word) : (s.raise c a w n).v = s.v := rfl
@[simp] theorem State.raise_iReg (c : Cause) (a : Word) (w n : Option Word) : (s.raise c a w n).iReg = s.iReg := rfl
@[simp] theorem State.raise_pc (c : Cause) (a : Word) (w n : Option Word) : (s.raise c a w n).pc = s.pc := rfl
@[simp] theorem State.raise_dt (c : Cause) (a : Word) (w n : Option Word) : (s.raise c a w n).dt = s.dt := rfl
@[simp] theorem State.raise_st (c : Cause) (a : Word) (w n : Option Word) : (s.raise c a w n).st = s.st := rfl
@[simp] theorem State.raise_stack (c : Cause) (a : Word) (w n : Option Word) : (s.raise c a w n).stack = s.stack := rfl
@[simp] theorem State.raise_mem (c : Cause) (a : Word) (w n : Option Word) : (s.raise c a w n).mem = s.mem := rfl
@[simp] theorem State.raise_key (c : Cause) (a : Word) (w n : Option Word) : (s.raise c a w n).key = s.key := rfl
@[simp] theorem State.raise_fb (c : Cause) (a : Word) (w n : Option Word) : (s.raise c a w n).fb = s.fb := rfl
@[simp] theorem State.raise_engine (c : Cause) (a : Word) (w n : Option Word) : (s.raise c a w n).engine = .halted c := rfl
@[simp] theorem State.raise_keyLatch (c : Cause) (a : Word) (w n : Option Word) : (s.raise c a w n).keyLatch = s.keyLatch := rfl
@[simp] theorem State.raise_accI (c : Cause) (a : Word) (w n : Option Word) : (s.raise c a w n).accI = s.accI := rfl
@[simp] theorem State.raise_accT (c : Cause) (a : Word) (w n : Option Word) : (s.raise c a w n).accT = s.accT := rfl
@[simp] theorem State.raise_faultRec (c : Cause) (a : Word) (w n : Option Word) : (s.raise c a w n).faultRec = some ⟨c, a, w, n⟩ := rfl
@[simp] theorem State.raise_running (c : Cause) (a : Word) (w n : Option Word) : (s.raise c a w n).running = s.running := rfl
@[simp] theorem State.raise_changed (c : Cause) (a : Word) (w n : Option Word) : (s.raise c a w n).changed = false := rfl
@[simp] theorem State.raise_unknownOpcode (c : Cause) (a : Word) (w n : Option Word) : (s.raise c a w n).unknownOpcode = s.unknownOpcode := rfl
@[simp] theorem State.raise_frameChanged (c : Cause) (a : Word) (w n : Option Word) : (s.raise c a w n).frameChanged = s.frameChanged := rfl
@[simp] theorem State.raise_framePort (c : Cause) (a : Word) (w n : Option Word) : (s.raise c a w n).framePort = s.framePort := rfl
@[simp] theorem State.raise_audioPort (c : Cause) (a : Word) (w n : Option Word) : (s.raise c a w n).audioPort = s.audioPort := rfl
@[simp] theorem State.raise_phase (c : Cause) (a : Word) (w n : Option Word) : (s.raise c a w n).phase = s.phase := rfl
@[simp] theorem State.raise_inputs (c : Cause) (a : Word) (w n : Option Word) : (s.raise c a w n).inputs = s.inputs := rfl
@[simp] theorem State.raise_iterations (c : Cause) (a : Word) (w n : Option Word) : (s.raise c a w n).iterations = s.iterations := rfl
@[simp] theorem State.raise_draws (c : Cause) (a : Word) (w n : Option Word) : (s.raise c a w n).draws = s.draws := rfl

/-! ### spendInstr -/

@[simp] theorem State.spendInstr_cfg : (s.spendInstr).cfg = s.cfg := rfl
@[simp] theorem State.spendInstr_v : (s.spendInstr).v = s.v := rfl
@[simp] theorem State.spendInstr_iReg : (s.spendInstr).iReg = s.iReg := rfl
@[simp] theorem State.spendInstr_pc : (s.spendInstr).pc = s.pc := rfl
@[simp] theorem State.spendInstr_dt : (s.spendInstr).dt = s.dt := rfl
@[simp] theorem State.spendInstr_st : (s.spendInstr).st = s.st := rfl
@[simp] theorem State.spendInstr_stack : (s.spendInstr).stack = s.stack := rfl
@[simp] theorem State.spendInstr_mem : (s.spendInstr).mem = s.mem := rfl
@[simp] theorem State.spendInstr_key : (s.spendInstr).key = s.key := rfl
@[simp] theorem State.spendInstr_fb : (s.spendInstr).fb = s.fb := rfl
@[simp] theorem State.spendInstr_engine : (s.spendInstr).engine = s.engine := rfl
@[simp] theorem State.spendInstr_keyLatch : (s.spendInstr).keyLatch = s.keyLatch := rfl
@[simp] theorem State.spendInstr_accI : (s.spendInstr).accI = s.accI - instrPeriod s.cfg := rfl
@[simp] theorem State.spendInstr_accT : (s.spendInstr).accT = s.accT := rfl
@[simp] theorem State.spendInstr_faultRec : (s.spendInstr).faultRec = s.faultRec := rfl
@[simp] theorem State.spendInstr_running : (s.spendInstr).running = s.running := rfl
@[simp] theorem State.spendInstr_changed : (s.spendInstr).changed = s.changed := rfl
@[simp] theorem State.spendInstr_unknownOpcode : (s.spendInstr).unknownOpcode = s.unknownOpcode := rfl
@[simp] theorem State.spendInstr_frameChanged : (s.spendInstr).frameChanged = s.frameChanged := rfl
@[simp] theorem State.spendInstr_framePort : (s.spendInstr).framePort = s.framePort := rfl
@[simp] theorem State.spendInstr_audioPort : (s.spendInstr).audioPort = s.audioPort := rfl
@[simp] theorem State.spendInstr_phase : (s.spendInstr).phase = s.phase := rfl
@[simp] theorem State.spendInstr_inputs : (s.spendInstr).inputs = s.inputs := rfl
@[simp] theorem State.spendInstr_iterations : (s.spendInstr).iterations = s.iterations := rfl
@[simp] theorem State.spendInstr_draws : (s.spendInstr).draws = s.draws := rfl

/-! ### spendTimer -/

@[simp] theorem State.spendTimer_cfg : (s.spendTimer).cfg = s.cfg := rfl
@[simp] theorem State.spendTimer_v : (s.spendTimer).v = s.v := rfl
@[simp] theorem State.spendTimer_iReg : (s.spendTimer).iReg = s.iReg := rfl
@[simp] theorem State.spendTimer_pc : (s.spendTimer).pc = s.pc := rfl
@[simp] theorem State.spendTimer_dt : (s.spendTimer).dt = s.dt := rfl
@[simp] theorem State.spendTimer_st : (s.spendTimer).st = s.st := rfl
@[simp] theorem State.spendTimer_stack : (s.spendTimer).stack = s.stack := rfl
@[simp] theorem State.spendTimer_mem : (s.spendTimer).mem = s.mem := rfl
@[simp] theorem State.spendTimer_key : (s.spendTimer).key = s.key := rfl
@[simp] theorem State.spendTimer_fb : (s.spendTimer).fb = s.fb := rfl
@[simp] theorem State.spendTimer_engine : (s.spendTimer).engine = s.engine := rfl
@[simp] theorem State.spendTimer_keyLatch : (s.spendTimer).keyLatch = s.keyLatch := rfl
@[simp] theorem State.spendTimer_accI : (s.spendTimer).accI = s.accI := rfl
@[simp] theorem State.spendTimer_accT : (s.spendTimer).accT = s.accT - timerPeriod := rfl
@[simp] theorem State.spendTimer_faultRec : (s.spendTimer).faultRec = s.faultRec := rfl
@[simp] theorem State.spendTimer_running : (s.spendTimer).running = s.running := rfl
@[simp] theorem State.spendTimer_changed : (s.spendTimer).changed = s.changed := rfl
@[simp] theorem State.spendTimer_unknownOpcode : (s.spendTimer).unknownOpcode = s.unknownOpcode := rfl
@[simp] theorem State.spendTimer_frameChanged : (s.spendTimer).frameChanged = s.frameChanged := rfl
@[simp] theorem State.spendTimer_framePort : (s.spendTimer).framePort = s.framePort := rfl
@[simp] theorem State.spendTimer_audioPort : (s.spendTimer).audioPort = s.audioPort := rfl
@[simp] theorem State.spendTimer_phase : (s.spendTimer).phase = s.phase := rfl
@[simp] theorem State.spendTimer_inputs : (s.spendTimer).inputs = s.inputs := rfl
@[simp] theorem State.spendTimer_iterations : (s.spendTimer).iterations = s.iterations := rfl
@[simp] theorem State.spendTimer_draws : (s.spendTimer).draws = s.draws := rfl

/-! ### timerTick -/

@[simp] theorem State.timerTick_cfg : (s.timerTick).cfg = s.cfg := rfl
@[simp] theorem State.timerTick_v : (s.timerTick).v = s.v := rfl
@[simp] theorem State.timerTick_iReg : (s.timerTick).iReg = s.iReg := rfl
@[simp] theorem State.timerTick_pc : (s.timerTick).pc = s.pc := rfl
@[simp] theorem State.timerTick_dt : (s.timerTick).dt = countDown s.dt := rfl
@[simp] theorem State.timerTick_st : (s.timerTick).st = countDown s.st := rfl
@[simp] theorem State.timerTick_stack : (s.timerTick).stack = s.stack := rfl
@[simp] theorem State.timerTick_mem : (s.timerTick).mem = s.mem := rfl
@[simp] theorem State.timerTick_key : (s.timerTick).key = s.key := rfl
@[simp] theorem State.timerTick_fb : (s.timerTick).fb = s.fb := rfl
@[simp] theorem State.timerTick_engine : (s.timerTick).engine = s.engine := rfl
@[simp] theorem State.timerTick_keyLatch : (s.timerTick).keyLatch = s.keyLatch := rfl
@[simp] theorem State.timerTick_accI : (s.timerTick).accI = s.accI := rfl
@[simp] theorem State.timerTick_accT : (s.timerTick).accT = s.accT := rfl
@[simp] theorem State.timerTick_faultRec : (s.timerTick).faultRec = s.faultRec := rfl
@[simp] theorem State.timerTick_running : (s.timerTick).running = s.running := rfl
@[simp] theorem State.timerTick_changed : (s.timerTick).changed = s.changed := rfl
@[simp] theorem State.timerTick_unknownOpcode : (s.timerTick).unknownOpcode = s.unknownOpcode := rfl
@[simp] theorem State.timerTick_frameChanged : (s.timerTick).frameChanged = s.frameChanged := rfl
@[simp] theorem State.timerTick_framePort : (s.timerTick).framePort = s.framePort := rfl
@[simp] theorem State.timerTick_audioPort : (s.timerTick).audioPort = s.audioPort := rfl
@[simp] theorem State.timerTick_phase : (s.timerTick).phase = s.phase := rfl
@[simp] theorem State.timerTick_inputs : (s.timerTick).inputs = s.inputs := rfl
@[simp] theorem State.timerTick_iterations : (s.timerTick).iterations = s.iterations := rfl
@[simp] theorem State.timerTick_draws : (s.timerTick).draws = s.draws := rfl

end Sys2Proof.Machine
end

