-- ==== Sys2Proof/Laws/Memory.lean ====
section
/-! SUPPORT. Memory: reads after writes, and the canonical form that every memory operation keeps. -/

namespace Sys2Proof.Machine

/-- Every address listed is above `k`. -/
def cellsAbove (k : Nat) (l : List Host.Cell) : Prop := ∀ p ∈ l, k < p.1

theorem cellsRise_cons (p : Host.Cell) (l : List Host.Cell) :
    cellsRise (p :: l) = true ↔ cellsAbove p.1 l ∧ cellsRise l = true := by
  induction l generalizing p with
  | nil => simp [cellsRise, cellsAbove]
  | cons q rest ih =>
    rw [cellsRise]
    simp only [Bool.and_eq_true, decide_eq_true_eq, ih q]
    constructor
    · rintro ⟨h1, h2, h3⟩
      refine ⟨?_, h2, h3⟩
      intro r hr
      rcases List.mem_cons.1 hr with rfl | hr
      · exact h1
      · exact Nat.lt_trans h1 (h2 r hr)
    · rintro ⟨h1, h2, h3⟩
      exact ⟨h1 q (by simp), h2, h3⟩

/-- No address of a list that lies above `a` is `a`. -/
theorem cellAt_of_above {l : List Host.Cell} {a : Nat} (h : cellsAbove a l) : cellAt l a = none := by
  induction l with
  | nil => rfl
  | cons p rest ih =>
    have h1 : p.1 ≠ a := by have := h p (by simp); omega
    have h2 : cellsAbove a rest := fun q hq => h q (by simp [hq])
    simp [cellAt, h1, ih h2]

theorem cellAt_insertCell (l : List Host.Cell) (a a' : Nat) (b : Byte) :
    cellAt (insertCell a b l) a' = if a' = a then some b else cellAt l a' := by
  induction l with
  | nil => simp [insertCell, cellAt, eq_comm]
  | cons p rest ih =>
    obtain ⟨k, d⟩ := p
    simp only [insertCell]
    by_cases h : a' = a
    · subst h
      split
      · simp [cellAt]
      · split
        · simp [cellAt]
        · simp [cellAt, ih]; omega
    · split
      · simp [cellAt, Ne.symm h]
      · split
        · rename_i hk; subst hk; simp [cellAt, Ne.symm h]
        · simp [cellAt, ih, h]

theorem cellAt_eraseCell {l : List Host.Cell} (hl : cellsRise l = true) (a a' : Nat) :
    cellAt (eraseCell a l) a' = if a' = a then none else cellAt l a' := by
  induction l with
  | nil => simp [eraseCell, cellAt]
  | cons p rest ih =>
    obtain ⟨k, d⟩ := p
    obtain ⟨h1, h2⟩ := (cellsRise_cons _ _).1 hl
    by_cases hk : k = a
    · subst hk
      by_cases h : a' = k
      · subst h; simp [eraseCell, cellAt_of_above h1]
      · simp [eraseCell, cellAt, h, Ne.symm h]
    · by_cases h : a' = a
      · subst h; simp [eraseCell, hk, cellAt, ih h2]
      · simp [eraseCell, hk, cellAt, ih h2, h]

theorem mem_insertCell {p : Host.Cell} {a : Nat} {b : Byte} {l : List Host.Cell} (h : p ∈ insertCell a b l) :
    p = (a, b) ∨ p ∈ l := by
  induction l with
  | nil => simpa [insertCell] using h
  | cons q rest ih =>
    obtain ⟨k, d⟩ := q
    simp only [insertCell] at h
    split at h
    · simpa using h
    · split at h
      · rcases List.mem_cons.1 h with h | h
        · exact .inl h
        · exact .inr (by simp [h])
      · rcases List.mem_cons.1 h with h | h
        · exact .inr (by simp [h])
        · rcases ih h with h | h
          · exact .inl h
          · exact .inr (by simp [h])

theorem mem_eraseCell {p : Host.Cell} {a : Nat} {l : List Host.Cell} (h : p ∈ eraseCell a l) : p ∈ l := by
  induction l with
  | nil => simp [eraseCell] at h
  | cons q rest ih =>
    obtain ⟨k, d⟩ := q
    simp only [eraseCell] at h
    split at h
    · simp [h]
    · rcases List.mem_cons.1 h with h | h
      · simp [h]
      · simp [ih h]

theorem cellsRise_insertCell {l : List Host.Cell} (hl : cellsRise l = true) (a : Nat) (b : Byte) :
    cellsRise (insertCell a b l) = true := by
  induction l with
  | nil => simp [insertCell, cellsRise]
  | cons q rest ih =>
    obtain ⟨k, d⟩ := q
    obtain ⟨h1, h2⟩ := (cellsRise_cons _ _).1 hl
    simp only [insertCell]
    split
    · rename_i hk
      refine (cellsRise_cons _ _).2 ⟨?_, hl⟩
      intro p hp
      rcases List.mem_cons.1 hp with rfl | hp
      · exact hk
      · exact Nat.lt_trans hk (h1 p hp)
    · split
      · rename_i hk; subst hk; exact (cellsRise_cons _ _).2 ⟨h1, h2⟩
      · refine (cellsRise_cons _ _).2 ⟨?_, ih h2⟩
        intro p hp
        rcases mem_insertCell hp with rfl | hp
        · show k < a; omega
        · exact h1 p hp

theorem cellsRise_eraseCell {l : List Host.Cell} (hl : cellsRise l = true) (a : Nat) :
    cellsRise (eraseCell a l) = true := by
  induction l with
  | nil => rfl
  | cons q rest ih =>
    obtain ⟨k, d⟩ := q
    obtain ⟨h1, h2⟩ := (cellsRise_cons _ _).1 hl
    simp only [eraseCell]
    split
    · exact h2
    · exact (cellsRise_cons _ _).2 ⟨fun p hp => h1 p (mem_eraseCell hp), ih h2⟩

theorem Memory.wf_iff (c : Config) (m : Memory) :
    m.wf c = true ↔ cellsRise m.cells = true ∧ ∀ p ∈ m.cells, p.1 < memSize ∧ p.2 ≠ Memory.background c p.1 := by
  simp [Memory.wf, List.all_eq_true]

/-- Memory with nothing listed, as right after boot, has the canonical form. -/
theorem Memory.wf_nil (c : Config) : (⟨[]⟩ : Memory).wf c = true := rfl

/-- A write keeps the canonical form. -/
theorem Memory.wf_write {c : Config} {m : Memory} (h : m.wf c = true) {a : Nat} (ha : a < memSize) (b : Byte) :
    (m.write c a b).wf c = true := by
  obtain ⟨h1, h2⟩ := (Memory.wf_iff c m).1 h
  unfold Memory.write
  split
  · exact (Memory.wf_iff _ _).2 ⟨cellsRise_eraseCell h1 a, fun p hp => h2 p (mem_eraseCell hp)⟩
  · rename_i hb
    refine (Memory.wf_iff _ _).2 ⟨cellsRise_insertCell h1 a b, fun p hp => ?_⟩
    rcases mem_insertCell hp with rfl | hp
    · exact ⟨ha, hb⟩
    · exact h2 p hp

/-- A read after a write: the byte written at its address, the old byte anywhere else. -/
theorem Memory.read_write {c : Config} {m : Memory} (h : m.wf c = true) (a a' : Nat) (b : Byte) :
    (m.write c a b).read c a' = if a' = a then b else m.read c a' := by
  obtain ⟨h1, -⟩ := (Memory.wf_iff c m).1 h
  unfold Memory.write Memory.read
  split
  · rename_i hb
    rw [cellAt_eraseCell h1]
    by_cases e : a' = a
    · subst e; simp [hb]
    · simp [e]
  · rw [cellAt_insertCell]
    by_cases e : a' = a <;> simp [e]

/-- Writing consecutive bytes inside memory keeps the canonical form. -/
theorem Memory.wf_writeList {c : Config} {m : Memory} (h : m.wf c = true) {a : Nat} {bs : List Byte}
    (ha : a + bs.length ≤ memSize) : (m.writeList c a bs).wf c = true := by
  induction bs generalizing m a with
  | nil => exact h
  | cons b rest ih =>
    simp only [List.length_cons] at ha
    exact ih (Memory.wf_write h (by omega) b) (by omega)

/-- A read after a write of consecutive bytes inside memory: the byte of the list at an address it covers, the old byte anywhere
else. -/
theorem Memory.read_writeList {c : Config} {m : Memory} (h : m.wf c = true) {a : Nat} {bs : List Byte}
    (ha : a + bs.length ≤ memSize) (a' : Nat) :
    (m.writeList c a bs).read c a' = if a ≤ a' ∧ a' < a + bs.length then bs.getD (a' - a) 0#8 else m.read c a' := by
  induction bs generalizing m a with
  | nil => simp [Memory.writeList]
  | cons b rest ih =>
    simp only [List.length_cons] at ha
    rw [Memory.writeList, ih (Memory.wf_write h (by omega) b) (by omega), Memory.read_write h]
    by_cases h1 : a' = a
    · subst h1
      have h2 : ¬ (a' + 1 ≤ a' ∧ a' < a' + 1 + rest.length) := by omega
      simp
    · by_cases h2 : a + 1 ≤ a' ∧ a' < a + 1 + rest.length
      · have h3 : a ≤ a' ∧ a' < a + (rest.length + 1) := by omega
        have h4 : a' - a = (a' - (a + 1)) + 1 := by omega
        simp [h2, h3, h4]
      · have h3 : ¬ (a ≤ a' ∧ a' < a + (rest.length + 1)) := by omega
        simp only [List.length_cons, if_neg h1, if_neg h2, if_neg h3]

/-- The state's byte after a write of consecutive bytes inside memory. -/
theorem State.readByte_writeBytes {s : State} (h : s.mem.wf s.cfg = true) {a : Nat} {bs : List Byte}
    (ha : a + bs.length ≤ memSize) (a' : Nat) :
    (s.writeBytes a bs).readByte a' = if a ≤ a' ∧ a' < a + bs.length then bs.getD (a' - a) 0#8 else s.readByte a' :=
  Memory.read_writeList h ha a'

/-- A state with the same memory and configuration reads the same bytes. -/
theorem State.readByte_congr {s t : State} (hm : t.mem = s.mem) (hc : t.cfg = s.cfg) (a : Nat) :
    t.readByte a = s.readByte a := by simp [State.readByte, hm, hc]

@[simp] theorem State.length_readBytes (s : State) (a n : Nat) : (s.readBytes a n).length = n := by
  induction n generalizing a with
  | zero => rfl
  | succ n ih => simp [State.readBytes, ih]

theorem State.getD_readBytes (s : State) (a n k : Nat) (h : k < n) : (s.readBytes a n).getD k 0#8 = s.readByte (a + k) := by
  induction n generalizing a k with
  | zero => omega
  | succ n ih =>
    cases k with
    | zero => simp [State.readBytes]
    | succ k =>
      rw [State.readBytes, List.getD_cons_succ, ih (a + 1) k (by omega)]
      congr 1; omega

theorem State.readBytes_congr {s t : State} (hm : t.mem = s.mem) (hc : t.cfg = s.cfg) (a n : Nat) :
    t.readBytes a n = s.readBytes a n := by
  induction n generalizing a with
  | zero => rfl
  | succ n ih => simp [State.readBytes, ih, State.readByte_congr hm hc]

end Sys2Proof.Machine
end

