-- ==== Sys2Proof/Laws/Exec.lean ====
section
/-! SUPPORT. What the operations shared by the meanings can do, each said once, and that exec always answers a next state. -/

namespace Sys2Proof.Machine

/-! ### The shared operations -/

/-- A memory access: the effect when the range lies in memory, the fault entry otherwise (R106). -/
theorem State.withAccess_cases (s : State) (i : Instr) (n : Nat) (t : State) :
    (inMemory s.iReg.toNat n = true ∧ s.withAccess i n t = t) ∨
    (inMemory s.iReg.toNat n = false ∧
      s.withAccess i n t = s.execFault .memoryOutOfRange i (some (firstOutside s.iReg))) := by
  unfold State.withAccess
  cases inMemory s.iReg.toNat n <;> simp

theorem inMemory_iff (a n : Nat) : inMemory a n = true ↔ n = 0 ∨ a + n ≤ 4096 := by
  rw [inMemory, Bool.or_eq_true, decide_eq_true_iff, decide_eq_true_iff]; rfl

/-- An access inside memory has its effect (R106). -/
theorem State.withAccess_inside {s : State} {n : Nat} (i : Instr) (t : State) (h : n = 0 ∨ s.iReg.toNat + n ≤ 4096) :
    s.withAccess i n t = t := by
  unfold State.withAccess; rw [if_pos ((inMemory_iff _ _).2 h)]

/-- An access that leaves memory enters the fault (R106, R341). -/
theorem State.withAccess_outside {s : State} {n : Nat} (i : Instr) (t : State) (h0 : n ≠ 0) (h : 4096 < s.iReg.toNat + n) :
    s.withAccess i n t = s.execFault .memoryOutOfRange i (some (BitVec.ofNat 16 (max s.iReg.toNat 4096))) := by
  unfold State.withAccess; rw [if_neg]; rfl
  rw [inMemory_iff]; omega

/-- push: none at capacity, else the new top and nothing else (R60). -/
theorem State.push_cases (s : State) (a : Word) :
    (s.stack.length = s.cfg.stackCapacity ∧ s.push a = none) ∨
    (s.stack.length ≠ s.cfg.stackCapacity ∧ s.push a = some { s with stack := a :: s.stack }) := by
  unfold State.push
  by_cases h : s.stack.length = s.cfg.stackCapacity <;> simp [h]

/-- pop: none on an empty stack, else the top, the rest and nothing else (R61). -/
theorem State.pop_cases (s : State) :
    (s.stack = [] ∧ s.pop = none) ∨
    (∃ a rest, s.stack = a :: rest ∧ s.pop = some (a, { s with stack := rest })) := by
  unfold State.pop
  cases h : s.stack with
  | nil => simp
  | cons a rest => exact .inr ⟨a, rest, rfl, rfl⟩

/-- A skip: pc moves on or nothing happens (R240). -/
theorem State.skipIf_cases (s : State) (cond : Bool) :
    (cond = true ∧ s.skipIf cond = s.skipNext) ∨ (cond = false ∧ s.skipIf cond = s) := by
  cases cond <;> simp [State.skipIf]

/-- The fault entry of an instruction, as an update of the state (R342). -/
theorem State.execFault_eq (s : State) (c : Cause) (i : Instr) (n : Option Word) :
    s.execFault c i n =
      { s with engine := .halted c, faultRec := some ⟨c, s.pc - 2#16, some (encode i), n⟩, changed := false } := rfl

/-- The key named by a register value: present below 0x10, with the same number (R310). -/
theorem keyIndex_cases (b : Byte) :
    (b.toNat < 16 ∧ ∃ k : Nibble, keyIndex b = some k ∧ k.toNat = b.toNat) ∨ (16 ≤ b.toNat ∧ keyIndex b = none) := by
  unfold keyIndex
  by_cases h : b.toNat < 16
  · left; refine ⟨h, b.setWidth 4, by simp [h], ?_⟩; simp; omega
  · right; simp [h]; omega

/-- A load of a register range and a new I change the registers and I only (R266). -/
theorem State.loadRegs_keeps (s : State) (k : Nat) (bs : List Byte) :
    ∃ v, s.loadRegs k bs = { s with v := v } := by
  induction bs generalizing s k with
  | nil => exact ⟨s.v, rfl⟩
  | cons b rest ih =>
    obtain ⟨v, h⟩ := ih (s.setReg (BitVec.ofNat 4 k) b) (k + 1)
    exact ⟨v, h⟩

/-! ### exec as a whole -/

/-- What no instruction changes: the configuration, the clock divider, the host's inputs and the keypad. -/
structure SameSurroundings (s t : State) : Prop where
  cfg : t.cfg = s.cfg
  key : t.key = s.key
  accI : t.accI = s.accI
  accT : t.accT = s.accT
  running : t.running = s.running
  framePort : t.framePort = s.framePort
  audioPort : t.audioPort = s.audioPort
  phase : t.phase = s.phase
  inputs : t.inputs = s.inputs
  iterations : t.iterations = s.iterations

theorem SameSurroundings.refl (s : State) : SameSurroundings s s := ⟨rfl, rfl, rfl, rfl, rfl, rfl, rfl, rfl, rfl, rfl⟩

/-- exec answers a next state, and one with the same surroundings: said once for all instructions. -/
theorem exec_answers (i : Instr) (s : State) : ∃ t, exec i s = .next t ∧ SameSurroundings s t := by
  have fault : ∀ (c : Cause) (j : Instr) (n : Option Word), SameSurroundings s (s.execFault c j n) :=
    fun c j n => ⟨rfl, rfl, rfl, rfl, rfl, rfl, rfl, rfl, rfl, rfl⟩
  have access : ∀ (j : Instr) (n : Nat) (t : State), SameSurroundings s t →
      SameSurroundings s (s.withAccess j n t) := by
    intro j n t h
    rcases s.withAccess_cases j n t with ⟨-, e⟩ | ⟨-, e⟩
    · rw [e]; exact h
    · rw [e]; exact fault _ _ _
  have skip : ∀ cond, SameSurroundings s (s.skipIf cond) := by
    intro cond
    rcases s.skipIf_cases cond with ⟨-, e⟩ | ⟨-, e⟩
    · rw [e]; exact ⟨rfl, rfl, rfl, rfl, rfl, rfl, rfl, rfl, rfl, rfl⟩
    · rw [e]; exact SameSurroundings.refl s
  cases i with
  | ret x =>
    rcases s.pop_cases with ⟨-, e⟩ | ⟨a, rest, -, e⟩
    · exact ⟨s.execFault .stackUnderflow (.ret x) none, by simp only [exec, execRet, e], fault _ _ _⟩
    · exact ⟨({ s with stack := rest }).setPc a, by simp only [exec, execRet, e], ⟨rfl, rfl, rfl, rfl, rfl, rfl, rfl, rfl, rfl, rfl⟩⟩
  | call nnn =>
    rcases s.push_cases s.pc with ⟨-, e⟩ | ⟨-, e⟩
    · exact ⟨s.execFault .stackOverflow (.call nnn) (some s.pc), by simp only [exec, execCall, e], fault _ _ _⟩
    · exact ⟨({ s with stack := s.pc :: s.stack }).setPc (zextAddr nnn), by simp only [exec, execCall, e],
        ⟨rfl, rfl, rfl, rfl, rfl, rfl, rfl, rfl, rfl, rfl⟩⟩
  | skp x =>
    rcases keyIndex_cases (s.reg x) with ⟨-, k, e, -⟩ | ⟨-, e⟩
    · exact ⟨s.skipIf (s.keyDown k), by simp only [exec, execSkp, e], skip _⟩
    · exact ⟨s.execFault .keyIndexOutOfRange (.skp x) (some (zextByte (s.reg x))),
        by simp only [exec, execSkp, e], fault _ _ _⟩
  | sknp x =>
    rcases keyIndex_cases (s.reg x) with ⟨-, k, e, -⟩ | ⟨-, e⟩
    · exact ⟨s.skipIf (!s.keyDown k), by simp only [exec, execSknp, e], skip _⟩
    · exact ⟨s.execFault .keyIndexOutOfRange (.sknp x) (some (zextByte (s.reg x))),
        by simp only [exec, execSknp, e], fault _ _ _⟩
  | seImm x nn => exact ⟨_, rfl, skip _⟩
  | sneImm x nn => exact ⟨_, rfl, skip _⟩
  | seReg x y n => exact ⟨_, rfl, skip _⟩
  | sneReg x y n => exact ⟨_, rfl, skip _⟩
  | ldB x => exact ⟨_, rfl, access _ _ _ ⟨rfl, rfl, rfl, rfl, rfl, rfl, rfl, rfl, rfl, rfl⟩⟩
  | ldMemVx x => exact ⟨_, rfl, access _ _ _ ⟨rfl, rfl, rfl, rfl, rfl, rfl, rfl, rfl, rfl, rfl⟩⟩
  | ldVxMem x =>
    refine ⟨_, rfl, access _ _ _ ?_⟩
    obtain ⟨v, e⟩ := s.loadRegs_keeps 0 (s.readBytes s.iReg.toNat (x.toNat + 1))
    rw [e]; exact ⟨rfl, rfl, rfl, rfl, rfl, rfl, rfl, rfl, rfl, rfl⟩
  | drw x y n => exact ⟨_, rfl, access _ _ _ ⟨rfl, rfl, rfl, rfl, rfl, rfl, rfl, rfl, rfl, rfl⟩⟩
  | cls x | sys nnn | jp nnn | ldImm x nn | addImm x nn | ldReg x y | orReg x y | andReg x y | xorReg x y | addReg x y
  | sub x y | shr x y | subn x y | shl x y | ldI nnn | jpOff nnn | rnd x nn | ldVxDt x | ldVxK x | ldDtVx x | ldStVx x
  | addI x | ldF x => exact ⟨_, rfl, ⟨rfl, rfl, rfl, rfl, rfl, rfl, rfl, rfl, rfl, rfl⟩⟩

/-- What a next state of exec keeps. -/
theorem exec_keeps {i : Instr} {s t : State} (h : exec i s = .next t) : SameSurroundings s t := by
  obtain ⟨u, hu, hk⟩ := exec_answers i s
  rw [h] at hu
  cases hu
  exact hk

end Sys2Proof.Machine
end

