-- ==== Sys2Proof/Laws/Step.lean ====
section
/-! SUPPORT. What a step can do, said once: the inversion of the cycle, of the instruction tick and of the step; the periods as
fractions; and the run of several steps. -/

namespace Sys2Proof.Machine

/-- P_TIMER as a fraction. -/
theorem timerPeriod_eq : timerPeriod = 1 / 60 := by decide +kernel

theorem timerPeriod_pos : 0 < timerPeriod := by decide +kernel

/-- P_INSTR is 1 / INSTR_HZ (R22). -/
theorem instrPeriod_eq (c : Config) : instrPeriod c = 1 / c.instrHz := by
  have h := Rat.num_div_den c.instrHz
  rw [instrPeriod, Rat.divInt_eq_div, one_div, ← inv_div, Int.cast_natCast, h]

theorem instrPeriod_pos {c : Config} (h : c.wf = true) : 0 < instrPeriod c := by
  simp only [Config.wf, Bool.and_eq_true, decide_eq_true_eq] at h
  rw [instrPeriod_eq]
  exact one_div_pos.2 (Rat.num_pos.1 h.2)

/-- The fetch check, by the pc (R173). -/
theorem fetchCheck_cases (c : Config) (a : Word) :
    (a.toNat % 2 = 1 ∧ c.oddPc = .fault ∧ fetchCheck c a = some .misalignedFetch) ∨
    (¬ (a.toNat % 2 = 1 ∧ c.oddPc = .fault) ∧ 4096 ≤ a.toNat + 1 ∧ fetchCheck c a = some .fetchOutOfRange) ∨
    (¬ (a.toNat % 2 = 1 ∧ c.oddPc = .fault) ∧ a.toNat + 1 < 4096 ∧ fetchCheck c a = none) := by
  unfold fetchCheck
  by_cases h1 : a.toNat % 2 = 1 ∧ c.oddPc = .fault
  · left; exact ⟨h1.1, h1.2, if_pos h1⟩
  · rw [if_neg h1]
    by_cases h2 : memSize ≤ a.toNat + 1
    · right; left; exact ⟨h1, h2, if_pos h2⟩
    · right; right; exact ⟨h1, by unfold memSize at h2; omega, if_neg h2⟩

/-- Dispatch (R172, R178, R185): an ambiguous word faults under STRICT, an instruction runs, an undefined word is logged. -/
theorem State.dispatch_cases (s : State) (w : Word) :
    (s.cfg.strictSecondary = true ∧ isAmbiguous w = true ∧
      s.dispatch w = .next (s.raise .ambiguousEncoding s.instrAddr (some w) (some w))) ∨
    ((s.cfg.strictSecondary = false ∨ isAmbiguous w = false) ∧
      ((∃ i, decodeWord w = .ok i ∧ s.dispatch w = exec i s) ∨
        (∃ r, decodeWord w = .error r ∧ s.dispatch w = .next (s.emitUnknown s.instrAddr w)))) := by
  unfold State.dispatch
  by_cases h : s.cfg.strictSecondary = true ∧ isAmbiguous w = true
  · left; exact ⟨h.1, h.2, if_pos h⟩
  · right
    rw [if_neg h]
    refine ⟨by cases h1 : s.cfg.strictSecondary <;> simp_all, ?_⟩
    cases hd : decodeWord w with
    | ok i => exact .inl ⟨i, rfl, rfl⟩
    | error r => exact .inr ⟨r, rfl, rfl⟩

/-- What an instruction tick answers: always a next state, and one of these. -/
theorem State.instructionTick_cases {s t : State} (h : s.instructionTick = .next t) :
    (∃ c, s.engine = .halted c ∧ t = s.clearOutputs) ∨
    (∃ x, s.engine = .awaitingKey x ∧ t = s.clearOutputs.keyWaitTick x) ∨
    (∃ c, s.engine = .running ∧ fetchCheck s.cfg s.pc = some c ∧ t = s.clearOutputs.raise c s.pc none (some s.pc)) ∨
    (s.engine = .running ∧ fetchCheck s.cfg s.pc = none ∧
      s.clearOutputs.advancePc.dispatch (s.fetchWord s.pc.toNat) = .next t) := by
  unfold State.instructionTick at h
  cases he : s.engine with
  | running =>
    rw [he] at h
    simp only [State.cycle] at h
    cases hf : fetchCheck s.clearOutputs.cfg s.clearOutputs.pc with
    | none => rw [hf] at h; exact .inr (.inr (.inr ⟨rfl, hf, h⟩))
    | some c => rw [hf] at h; cases h; exact .inr (.inr (.inl ⟨c, rfl, hf, rfl⟩))
  | awaitingKey x => rw [he] at h; cases h; exact .inr (.inl ⟨x, rfl, rfl⟩)
  | halted c => rw [he] at h; cases h; exact .inl ⟨c, rfl, rfl⟩

/-- An instruction tick answers a next state. -/
theorem State.instructionTick_answers (s : State) : ∃ t, s.instructionTick = .next t := by
  unfold State.instructionTick
  cases s.engine with
  | running =>
    simp only [State.cycle]
    cases fetchCheck s.clearOutputs.cfg s.clearOutputs.pc with
    | some c => exact ⟨_, rfl⟩
    | none =>
      simp only
      generalize s.clearOutputs.advancePc = u
      generalize s.clearOutputs.fetchWord s.clearOutputs.pc.toNat = w
      rcases u.dispatch_cases w with ⟨-, -, e⟩ | ⟨-, ⟨i, -, e⟩ | ⟨r, -, e⟩⟩
      · exact ⟨_, e⟩
      · obtain ⟨t, ht, -⟩ := exec_answers i u
        exact ⟨t, e.trans ht⟩
      · exact ⟨_, e⟩
  | awaitingKey x => exact ⟨_, rfl⟩
  | halted c => exact ⟨_, rfl⟩

/-- What an instruction tick keeps, whatever it does. -/
theorem State.instructionTick_keeps {s t : State} (h : s.instructionTick = .next t) : SameSurroundings s t := by
  rcases s.instructionTick_cases h with ⟨c, -, rfl⟩ | ⟨x, -, rfl⟩ | ⟨c, -, -, rfl⟩ | ⟨-, -, hd⟩
  · exact ⟨rfl, rfl, rfl, rfl, rfl, rfl, rfl, rfl, rfl, rfl⟩
  · unfold State.keyWaitTick
    cases s.clearOutputs.lowestKey <;> exact ⟨rfl, rfl, rfl, rfl, rfl, rfl, rfl, rfl, rfl, rfl⟩
  · exact ⟨rfl, rfl, rfl, rfl, rfl, rfl, rfl, rfl, rfl, rfl⟩
  · rcases s.clearOutputs.advancePc.dispatch_cases (s.fetchWord s.pc.toNat) with
      ⟨-, -, e⟩ | ⟨-, ⟨i, -, e⟩ | ⟨r, -, e⟩⟩
    · rw [e] at hd; cases hd; exact ⟨rfl, rfl, rfl, rfl, rfl, rfl, rfl, rfl, rfl, rfl⟩
    · rw [e] at hd
      have k := exec_keeps hd
      exact ⟨k.cfg, k.key, k.accI, k.accT, k.running, k.framePort, k.audioPort, k.phase, k.inputs, k.iterations⟩
    · rw [e] at hd; cases hd; exact ⟨rfl, rfl, rfl, rfl, rfl, rfl, rfl, rfl, rfl, rfl⟩

/-- What a step can do (R354 to R356, R362, R367): exactly one of the five events. -/
theorem step_cases {s t : State} (h : step s = .next t) :
    (s.phase = .ended ∧ t = s) ∨
    (s.phase = .between ∧ t = s.startIteration) ∨
    (s.phase = .inside ∧ (s.isHalted = true ∨ s.instrDue = false ∧ s.timerDue = false) ∧ t = s.endIteration) ∨
    (s.phase = .inside ∧ s.isHalted = false ∧ s.instrDue = true ∧ s.spendInstr.instructionTick = .next t) ∨
    (s.phase = .inside ∧ s.isHalted = false ∧ s.instrDue = false ∧ s.timerDue = true ∧ t = s.spendTimer.timerTick) := by
  unfold step State.nextEvent at h
  cases hp : s.phase with
  | ended => rw [hp] at h; cases h; exact .inl ⟨rfl, rfl⟩
  | between => rw [hp] at h; cases h; exact .inr (.inl ⟨rfl, rfl⟩)
  | inside =>
    rw [hp] at h
    simp only at h
    cases hh : s.isHalted with
    | true => rw [hh] at h; cases h; exact .inr (.inr (.inl ⟨rfl, .inl rfl, rfl⟩))
    | false =>
      cases hi : s.instrDue with
      | true =>
        rw [hh, hi] at h
        exact .inr (.inr (.inr (.inl ⟨rfl, rfl, rfl, by simpa using h⟩)))
      | false =>
        cases ht : s.timerDue with
        | true =>
          rw [hh, hi, ht] at h
          simp only [Bool.false_eq_true, if_false, if_true] at h
          cases h
          exact .inr (.inr (.inr (.inr ⟨rfl, rfl, rfl, rfl, rfl⟩)))
        | false =>
          rw [hh, hi, ht] at h
          simp only [Bool.false_eq_true, if_false] at h
          cases h
          exact .inr (.inr (.inl ⟨rfl, .inr ⟨rfl, rfl⟩, rfl⟩))

/-- One more step of a run. -/
theorem run_succ_of_next {s t : State} (n : Nat) (h : step s = .next t) :
    Sys2Proof.core.run (n + 1) s = Sys2Proof.core.run n t := by
  have h' : Sys2Proof.core.step s = .next t := h
  simp only [Host.Core.run, h']

end Sys2Proof.Machine
end

