-- ==== Sys2Proof/Laws/Claims.lean ====
section
/-! SUPPORT. The vocabulary of the claims (Sys2Proof/Safety.lean) in the terms of the model: the word at pc, a fetch without a
fault, a tick that comes, what it does, and the keypad wait. -/

namespace Sys2Proof.Machine

/-- The word at pc is the one the fetch reads (R174). -/
theorem isWordAtPc_iff (w : Word) (s : State) : isWordAtPc w s ↔ w = s.fetchWord s.pc.toNat := by
  unfold isWordAtPc State.fetchWord
  rw [← toNat_wordOfBytes]; exact ⟨fun h => BitVec.eq_of_toNat_eq h, fun h => by rw [h]⟩

/-- A pc is fetchable exactly when the fetch check passes it (R173). -/
theorem fetchable_iff (s : State) : fetchable s ↔ fetchCheck s.cfg s.pc = none := by
  unfold fetchable
  have hc : s.cfg.oddPc = .execute ↔ ¬ s.cfg.oddPc = .fault := by cases s.cfg.oddPc <;> simp
  rcases fetchCheck_cases s.cfg s.pc with ⟨a, b, c⟩ | ⟨a, b, c⟩ | ⟨a, b, c⟩
  · simp [c, b, a]
  · simp [c]; omega
  · simp [c, b, hc]; rw [not_and] at a
    by_cases h : s.pc.toNat % 2 = 0
    · exact .inl h
    · exact .inr (a (by omega))

/-- When a tick comes, the step is the instruction tick with one period spent (R354). -/
theorem step_of_tickComes {s : State} (h : tickComes s) : step s = s.spendInstr.instructionTick := by
  obtain ⟨a, b, c⟩ := h
  simp [step, State.nextEvent, a, c, State.instrDue, b]

/-- The tick in RUNNING (R171). -/
theorem State.instructionTick_running {s : State} (h : s.engine = .running) :
    s.instructionTick = s.clearOutputs.cycle := by
  unfold State.instructionTick; rw [h]

/-- The tick in AWAITING_KEY (R183). -/
theorem State.instructionTick_awaiting {s : State} {x : Nibble} (h : s.engine = .awaitingKey x) :
    s.instructionTick = .next (s.clearOutputs.keyWaitTick x) := by
  unfold State.instructionTick; rw [h]

/-- In RUNNING at a fetchable pc the step dispatches the word at pc (R172). -/
theorem step_dispatches {s : State} (h : tickComes s) (he : s.engine = .running) (hf : fetchable s) :
    step s = (beforeDispatch s).dispatch (s.fetchWord s.pc.toNat) := by
  have hf' : fetchCheck s.spendInstr.clearOutputs.cfg s.spendInstr.clearOutputs.pc = none := (fetchable_iff s).1 hf
  rw [step_of_tickComes h, State.instructionTick_running (s := s.spendInstr) he, State.cycle, hf']
  rfl

/-- What a step does when a tick comes: the keypad wait, a fetch fault, or the dispatch of the word at pc. -/
theorem tickComes_cases {s t : State} (h : tickComes s) (hs : step s = .next t) :
    (∃ x, s.engine = .awaitingKey x ∧ t = s.spendInstr.clearOutputs.keyWaitTick x) ∨
    (∃ c, s.engine = .running ∧ fetchCheck s.cfg s.pc = some c ∧
      t = s.spendInstr.clearOutputs.raise c s.pc none (some s.pc)) ∨
    (s.engine = .running ∧ fetchCheck s.cfg s.pc = none ∧
      (beforeDispatch s).dispatch (s.fetchWord s.pc.toNat) = .next t) := by
  rw [step_of_tickComes h] at hs
  rcases State.instructionTick_cases hs with ⟨c, hc, -⟩ | ⟨x, hx, ht⟩ | ⟨c, hr, hf, ht⟩ | ⟨hr, hf, hd⟩
  · obtain ⟨-, -, hh⟩ := h
    have hc' : s.engine = .halted c := hc
    simp [State.isHalted, hc'] at hh
  · exact .inl ⟨x, hx, ht⟩
  · exact .inr (.inl ⟨c, hr, hf, ht⟩)
  · exact .inr (.inr ⟨hr, hf, hd⟩)

/-- What exec does to the engine state, the fault record and changed, said once: it enters a fault with its own word, of a
cause that only an instruction raises, or it goes on (LD_VX_K into the wait) with changed set by CLS and DRW alone. -/
theorem exec_cases {i : Instr} {s t : State} (h : exec i s = .next t) :
    (∃ c n, t = s.execFault c i n ∧ c ≠ .ambiguousEncoding ∧ c ≠ .misalignedFetch ∧ c ≠ .fetchOutOfRange) ∨
    ((t.engine = s.engine ∨ ∃ x, t.engine = .awaitingKey x) ∧ t.faultRec = s.faultRec ∧
      (t.changed = if draws i then true else s.changed)) := by
  have acc : ∀ (n : Nat) (u : State), u.engine = s.engine → u.faultRec = s.faultRec →
      (u.changed = if draws i then true else s.changed) → s.withAccess i n u = t →
      (∃ c n, t = s.execFault c i n ∧ c ≠ .ambiguousEncoding ∧ c ≠ .misalignedFetch ∧ c ≠ .fetchOutOfRange) ∨
      ((t.engine = s.engine ∨ ∃ x, t.engine = .awaitingKey x) ∧ t.faultRec = s.faultRec ∧
        (t.changed = if draws i then true else s.changed)) := by
    intro n u hu h1 h2 h
    rcases s.withAccess_cases i n u with ⟨-, e⟩ | ⟨-, e⟩
    · rw [e] at h; subst h; exact .inr ⟨.inl hu, h1, h2⟩
    · rw [e] at h; subst h; exact .inl ⟨_, _, rfl, by simp⟩
  have skp : ∀ c, s.skipIf c = t → t.engine = s.engine ∧ t.faultRec = s.faultRec ∧ t.changed = s.changed := by
    intro c h; rcases s.skipIf_cases c with ⟨-, e⟩ | ⟨-, e⟩ <;> rw [e] at h <;> subst h <;> exact ⟨rfl, rfl, rfl⟩
  cases i with
  | ret x =>
    rcases s.pop_cases with ⟨-, e⟩ | ⟨a, rest, -, e⟩
    · simp only [exec, execRet, e] at h; cases h; exact (.inl ⟨_, _, rfl, by simp⟩)
    · simp only [exec, execRet, e] at h; cases h; exact .inr ⟨.inl rfl, rfl, rfl⟩
  | call nnn =>
    rcases s.push_cases s.pc with ⟨-, e⟩ | ⟨-, e⟩
    · simp only [exec, execCall, e] at h; cases h; exact (.inl ⟨_, _, rfl, by simp⟩)
    · simp only [exec, execCall, e] at h; cases h; exact .inr ⟨.inl rfl, rfl, rfl⟩
  | skp x =>
    rcases keyIndex_cases (s.reg x) with ⟨-, k, e, -⟩ | ⟨-, e⟩
    · simp only [exec, execSkp, e] at h; cases h; obtain ⟨a, b, c⟩ := skp _ rfl; exact .inr ⟨.inl a, b, c⟩
    · simp only [exec, execSkp, e] at h; cases h; exact (.inl ⟨_, _, rfl, by simp⟩)
  | sknp x =>
    rcases keyIndex_cases (s.reg x) with ⟨-, k, e, -⟩ | ⟨-, e⟩
    · simp only [exec, execSknp, e] at h; cases h; obtain ⟨a, b, c⟩ := skp _ rfl; exact .inr ⟨.inl a, b, c⟩
    · simp only [exec, execSknp, e] at h; cases h; exact (.inl ⟨_, _, rfl, by simp⟩)
  | seImm x nn => cases h; obtain ⟨a, b, c⟩ := skp _ rfl; exact .inr ⟨.inl a, b, c⟩
  | sneImm x nn => cases h; obtain ⟨a, b, c⟩ := skp _ rfl; exact .inr ⟨.inl a, b, c⟩
  | seReg x y n => cases h; obtain ⟨a, b, c⟩ := skp _ rfl; exact .inr ⟨.inl a, b, c⟩
  | sneReg x y n => cases h; obtain ⟨a, b, c⟩ := skp _ rfl; exact .inr ⟨.inl a, b, c⟩
  | ldB x => simp only [exec, execLdB, Host.Outcome.next.injEq] at h; exact acc _ _ (by rfl) (by rfl) (by rfl) h
  | ldMemVx x => simp only [exec, execLdMemVx, Host.Outcome.next.injEq] at h; exact acc _ _ (by rfl) (by rfl) (by rfl) h
  | drw x y n => simp only [exec, execDrw, Host.Outcome.next.injEq] at h; exact acc _ _ (by rfl) (by rfl) (by rfl) h
  | ldVxMem x =>
    simp only [exec, execLdVxMem, Host.Outcome.next.injEq] at h
    obtain ⟨v, e⟩ := s.loadRegs_keeps 0 (s.readBytes s.iReg.toNat (x.toNat + 1))
    rw [e] at h
    exact acc _ _ (by rfl) (by rfl) (by rfl) h
  | ldVxK x => cases h; exact .inr ⟨.inr ⟨x, rfl⟩, rfl, rfl⟩
  | _ => cases h; exact .inr ⟨.inl rfl, rfl, rfl⟩

/-- The latch of a sample of the keypad. -/
theorem State.keysNow_get (s : State) (j : Nibble) : s.keysNow[j.toNat]'(j.isLt) = s.keyDown j := by
  simp [State.keysNow, State.keyDown]

/-- No key qualifies. -/
theorem State.lowestFrom_none (s : State) (k n : Nat) (h : ∀ k, s.keyQualifies k = false) : s.lowestFrom k n = none := by
  induction n generalizing k with
  | zero => rfl
  | succ n ih => simp [State.lowestFrom, h, ih]

/-- The lowest key that qualifies is found (R318). -/
theorem State.lowestFrom_some (s : State) (k n : Nat) (hk : k + n = 16) (j : Nibble) (hj : k ≤ j.toNat)
    (h1 : s.keyQualifies j = true) (h2 : ∀ i : Nibble, i.toNat < j.toNat → s.keyQualifies i = false) :
    s.lowestFrom k n = some j := by
  induction n generalizing k with
  | zero => have := j.isLt; omega
  | succ n ih =>
    rw [State.lowestFrom]
    by_cases e : j.toNat = k
    · have : BitVec.ofNat 4 k = j := by rw [← e]; simp
      rw [this, if_pos h1]
    · have : s.keyQualifies (BitVec.ofNat 4 k) = false := by
        apply h2; have := j.isLt; simp; omega
      rw [this]; simp; exact ih (k+1) (by omega) (by omega)

end Sys2Proof.Machine
end

