-- ==== Sys2Proof/Laws/Clock.lean ====
section
/-! SUPPORT. The clock divider: how many ticks an accumulator holds, one tick's decrement, the host's delta and key transitions,
and runs put together. -/

namespace Sys2Proof.Machine

/-- No tick is due exactly when less than a period is left. -/
theorem lt_of_dueTicks_zero {acc p : Rat} (hp : 0 < p) (h : dueTicks acc p = 0) : acc < p := by
  unfold dueTicks at h
  have h1 : (acc / p).floor ≤ 0 := by omega
  have h2 : acc / p < 1 := by
    have : ⌊acc / p⌋ < 1 := by have e : ⌊acc / p⌋ = (acc/p).floor := rfl; omega
    have := Int.floor_lt.1 this; simpa using this
  rwa [div_lt_one hp] at h2

/-- Spending one period leaves one tick fewer (R358). -/
theorem dueTicks_spend {acc p : Rat} (hp : 0 < p) (h : p ≤ acc) : dueTicks acc p = dueTicks (acc - p) p + 1 := by
  unfold dueTicks
  have e1 : (acc / p).floor = ⌊acc / p⌋ := rfl
  have e2 : ((acc - p) / p).floor = ⌊(acc - p) / p⌋ := rfl
  have e3 : (acc - p) / p = acc / p - 1 := by rw [sub_div, div_self hp.ne']
  have e4 : (1:ℤ) ≤ ⌊acc / p⌋ := by rw [Int.le_floor]; simpa using (one_le_div hp).2 h
  rw [e1, e2, e3, Int.floor_sub_one]; omega

/-- A timer's decrement as a number, floored at zero (R351). -/
theorem toNat_countDown (b : Byte) : (countDown b).toNat = b.toNat - 1 := by
  have := b.isLt
  unfold countDown
  by_cases h : b = 0#8
  · simp [h]
  · have : b.toNat ≠ 0 := fun e => h (BitVec.eq_of_toNat_eq e)
    rw [if_neg h]; simp; omega

/-- A delta is never negative (R82). -/
theorem delta_nonneg (h : HostInput) : 0 ≤ h.delta := by
  unfold HostInput.delta; rw [Rat.mkRat_eq_div]; positivity

/-- The next input is the head of the queue. -/
theorem State.nextInput_of_cons {s : State} {h : HostInput} {rest : List HostInput} (e : s.inputs = h :: rest) :
    s.nextInput = h := by unfold State.nextInput; rw [e]

/-- Past the end of the queue the next input is the free one (log entry 5). -/
theorem State.nextInput_of_nil {s : State} (e : s.inputs = []) : s.nextInput = Config.freeInput s.iterations := by
  unfold State.nextInput; rw [e]

/-- Two lists of key transitions one after the other. -/
theorem applyKeys_append (key : Vector Bool 17) (a b : List (Nibble × Bool)) :
    applyKeys key (a ++ b) = applyKeys (applyKeys key a) b := by
  induction a generalizing key with
  | nil => rfl
  | cons p rest ih => obtain ⟨k, d⟩ := p; simp [applyKeys, ih]

/-- What the start of an outer iteration leaves as it was. -/
theorem State.startIteration_keeps (s : State) :
    s.startIteration.engine = s.engine ∧ s.startIteration.faultRec = s.faultRec ∧ s.startIteration.v = s.v ∧
      s.startIteration.iReg = s.iReg ∧
      s.startIteration.pc = s.pc ∧ s.startIteration.dt = s.dt ∧ s.startIteration.st = s.st ∧ s.startIteration.stack = s.stack ∧
      s.startIteration.mem = s.mem ∧ s.startIteration.fb = s.fb ∧ s.startIteration.keyLatch = s.keyLatch ∧
      s.startIteration.cfg = s.cfg := by
  unfold State.startIteration
  split <;> exact ⟨rfl, rfl, rfl, rfl, rfl, rfl, rfl, rfl, rfl, rfl, rfl, rfl⟩

/-- A run of a + b steps is a run of a steps and then of b. -/
theorem run_add {a : Nat} {s t : State} (b : Nat) (h : Sys2Proof.core.run a s = .next t) :
    Sys2Proof.core.run (a + b) s = Sys2Proof.core.run b t := by
  induction a generalizing s with
  | zero => cases h; simp
  | succ a ih =>
    cases hu : step s with
    | next u =>
      rw [run_succ_of_next _ hu] at h
      rw [show a + 1 + b = (a + b) + 1 by omega, run_succ_of_next _ hu]
      exact ih h
    | fault f =>
      have hu' : Sys2Proof.core.step s = .fault f := hu
      simp only [Host.Core.run, hu'] at h
      cases h
    | refused r =>
      have hu' : Sys2Proof.core.step s = .refused r := hu
      simp only [Host.Core.run, hu'] at h
      cases h

end Sys2Proof.Machine
end

