-- ==== Sys2Proof/Laws/Framebuffer.lean ====
section
/-! SUPPORT. The framebuffer: reads after a toggle, and what drawing the rows of a sprite does to each cell and to the
collision. -/

namespace Sys2Proof.Machine

theorem Framebuffer.get_outside (f : Framebuffer) {c r : Nat} (h : ¬ (c < 64 ∧ r < 32)) : f.get c r = false := by
  simp [Framebuffer.get, h]

@[simp] theorem Framebuffer.get_clear (c r : Nat) : Framebuffer.clear.get c r = false := by
  by_cases h : c < 64 ∧ r < 32 <;> simp [Framebuffer.get, Framebuffer.clear, h]

/-- Two framebuffers with the same cells are equal. -/
theorem Framebuffer.ext_get {f g : Framebuffer} (h : ∀ c r, c < 64 → r < 32 → f.get c r = g.get c r) : f = g := by
  apply Vector.ext
  intro r hr
  apply Vector.ext
  intro c hc
  simpa [Framebuffer.get, hc, hr] using h c r hc hr

/-- A toggle changes its own cell and no other. -/
theorem Framebuffer.get_flip (f : Framebuffer) (c r c' r' : Nat) (h : c < 64 ∧ r < 32) :
    (f.flip c r).get c' r' = if c' = c ∧ r' = r then !(f.get c r) else f.get c' r' := by
  by_cases h' : c' < 64 ∧ r' < 32
  · by_cases hr : r = r'
    · subst hr
      by_cases hc : c = c'
      · subst hc; simp [Framebuffer.get, Framebuffer.flip, h]
      · simp [Framebuffer.get, Framebuffer.flip, h, h', hc, Ne.symm hc]
    · simp [Framebuffer.get, Framebuffer.flip, h, h', hr, Ne.symm hr]
  · have h2 : ¬ (c' = c ∧ r' = r) := by rintro ⟨rfl, rfl⟩; exact h' h
    rw [Framebuffer.get_outside _ h', if_neg h2, Framebuffer.get_outside _ h']

/-- One sprite bit XORs its own cell, inside the grid, and no other. -/
theorem Canvas.get_pixel (a : Canvas) (c r c' r' : Nat) (bit : Bool) (h' : c' < 64 ∧ r' < 32) :
    (a.pixel c r bit).fb.get c' r' = (a.fb.get c' r' ^^ (bit && decide (c' = c ∧ r' = r))) := by
  unfold Canvas.pixel
  split
  · rename_i h
    rw [Framebuffer.get_flip _ _ _ _ _ h.2]
    by_cases e : c' = c ∧ r' = r
    · obtain ⟨rfl, rfl⟩ := e; simp [h.1]
    · simp [e]
  · rename_i h
    by_cases e : c' = c ∧ r' = r
    · obtain ⟨rfl, rfl⟩ := e
      have : bit = false := by cases bit <;> simp_all
      simp [this]
    · simp [e]

/-- One sprite bit collides when it falls on a set cell of the grid. -/
theorem Canvas.hit_pixel (a : Canvas) (c r : Nat) (bit : Bool) :
    (a.pixel c r bit).hit = (a.hit || (bit && a.fb.get c r)) := by
  unfold Canvas.pixel
  split
  · rename_i h; simp [h.1]
  · rename_i h
    by_cases e : c < 64 ∧ r < 32
    · have : bit = false := by cases bit <;> simp_all
      simp [this]
    · simp [Framebuffer.get_outside _ e]

/-- The bit of a row of sprite columns at column `c`, its left edge at `x0`. -/
def rowBit (x0 : Nat) (row : Byte) (c : Nat) : Bool := decide (x0 ≤ c ∧ c < x0 + 8) && row.getLsbD (7 - (c - x0))

theorem Canvas.get_columns (a : Canvas) (x0 r : Nat) (row : Byte) (k : Nat) (hk : k ≤ 8) (c' r' : Nat)
    (h' : c' < 64 ∧ r' < 32) :
    (a.columns x0 r row k).fb.get c' r' =
      (a.fb.get c' r' ^^ (decide (c' < x0 + k ∧ r' = r) && rowBit x0 row c')) := by
  induction k with
  | zero =>
    have : (decide (c' < x0 + 0 ∧ r' = r) && rowBit x0 row c') = false := by
      simp only [rowBit, Bool.and_eq_false_iff, decide_eq_false_iff_not]
      by_cases e : c' < x0
      · right; left; omega
      · left; omega
    rw [Canvas.columns, this, Bool.xor_false]
  | succ k ih =>
    rw [Canvas.columns, Canvas.get_pixel _ _ _ _ _ _ h', ih (by omega), Bool.xor_assoc]
    congr 1
    by_cases hr : r' = r
    · by_cases hc : c' = x0 + k
      · subst hc
        have h1 : x0 + k - x0 = k := by omega
        simp [rowBit, hr, h1]; omega
      · by_cases h2 : c' < x0 + k
        · have h3 : c' < x0 + (k + 1) := by omega
          simp [hr, hc, h2, h3]
        · have h3 : ¬ c' < x0 + (k + 1) := by omega
          simp [hr, hc, h2, h3]
    · simp [hr]

theorem Canvas.hit_columns (a : Canvas) (x0 r : Nat) (row : Byte) (k : Nat) (hk : k ≤ 8) :
    (a.columns x0 r row k).hit = true ↔
      a.hit = true ∨ ∃ c, c < x0 + k ∧ rowBit x0 row c = true ∧ a.fb.get c r = true := by
  induction k with
  | zero =>
    simp only [Canvas.columns, rowBit, Bool.and_eq_true, decide_eq_true_eq]
    constructor
    · exact .inl
    · rintro (h | ⟨c, h1, ⟨⟨h2, -⟩, -⟩, -⟩)
      · exact h
      · omega
  | succ k ih =>
    rw [Canvas.columns, Canvas.hit_pixel, Bool.or_eq_true, ih (by omega)]
    have hbit : rowBit x0 row (x0 + k) = row.getLsbD (7 - k) := by
      have h1 : x0 + k - x0 = k := by omega
      simp [rowBit, h1]; omega
    have hold : (a.columns x0 r row k).fb.get (x0 + k) r = a.fb.get (x0 + k) r := by
      by_cases h' : x0 + k < 64 ∧ r < 32
      · rw [Canvas.get_columns _ _ _ _ _ (by omega) _ _ h']; simp
      · rw [Framebuffer.get_outside _ h', Framebuffer.get_outside _ h']
    constructor
    · rintro ((h | ⟨c, h1, h2, h3⟩) | h)
      · exact .inl h
      · exact .inr ⟨c, by omega, h2, h3⟩
      · rw [hold, ← hbit] at h
        exact .inr ⟨x0 + k, by omega, by simpa using h⟩
    · rintro (h | ⟨c, h1, h2, h3⟩)
      · exact .inl (.inl h)
      · by_cases hc : c = x0 + k
        · subst hc; right; rw [hold, ← hbit]; simp [h2, h3]
        · exact .inl (.inr ⟨c, by omega, h2, h3⟩)

/-- The bit of the rows of a sprite at column `c`, row `r`, its corner at (x0, r0). -/
def rowsBit (x0 r0 : Nat) (rows : List Byte) (c r : Nat) : Bool :=
  decide (r0 ≤ r ∧ r < r0 + rows.length) && rowBit x0 (rows.getD (r - r0) 0#8) c

@[simp] theorem rowsBit_nil (x0 r0 c r : Nat) : rowsBit x0 r0 [] c r = false := by
  simp only [rowsBit, Bool.and_eq_false_iff, decide_eq_false_iff_not]
  left
  simp

theorem rowsBit_cons (x0 r0 : Nat) (row : Byte) (rest : List Byte) (c r : Nat) :
    rowsBit x0 r0 (row :: rest) c r = if r = r0 then rowBit x0 row c else rowsBit x0 (r0 + 1) rest c r := by
  by_cases h : r = r0
  · subst h; simp [rowsBit]
  · by_cases h1 : r0 + 1 ≤ r ∧ r < r0 + 1 + rest.length
    · have h2 : r0 ≤ r ∧ r < r0 + (rest.length + 1) := by omega
      have h3 : r - r0 = (r - (r0 + 1)) + 1 := by omega
      simp [rowsBit, h, h1, h2, h3]
    · have h2 : ¬ (r0 ≤ r ∧ r < r0 + (rest.length + 1)) := by omega
      simp only [rowsBit, List.length_cons, if_neg h, h1, h2, decide_false, Bool.false_and]

/-- Each cell after drawing the rows of a sprite: XORed with the sprite's bit that falls on it. -/
theorem Canvas.get_rows (a : Canvas) (x0 r0 : Nat) (rows : List Byte) (c r : Nat) (h : c < 64 ∧ r < 32) :
    (a.rows x0 r0 rows).fb.get c r = (a.fb.get c r ^^ rowsBit x0 r0 rows c r) := by
  induction rows generalizing a r0 with
  | nil => simp [Canvas.rows]
  | cons row rest ih =>
    rw [Canvas.rows, ih, Canvas.get_columns _ _ _ _ _ (Nat.le_refl 8) _ _ h, rowsBit_cons, Bool.xor_assoc]
    congr 1
    by_cases hr : r = r0
    · subst hr
      have h1 : rowsBit x0 (r + 1) rest c r = false := by simp [rowsBit]
      have h2 : (decide (c < x0 + 8) && rowBit x0 row c) = rowBit x0 row c := by
        by_cases e : c < x0 + 8 <;> simp [rowBit, e]
      simp [h1, h2]
    · simp [hr]

/-- The collision after drawing the rows of a sprite: met before, or one of its bits falls on a set cell. -/
theorem Canvas.hit_rows (a : Canvas) (x0 r0 : Nat) (rows : List Byte) :
    (a.rows x0 r0 rows).hit = true ↔
      a.hit = true ∨ ∃ c r, rowsBit x0 r0 rows c r = true ∧ a.fb.get c r = true := by
  induction rows generalizing a r0 with
  | nil => simp [Canvas.rows]
  | cons row rest ih =>
    rw [Canvas.rows, ih, Canvas.hit_columns _ _ _ _ _ (Nat.le_refl 8)]
    have hcell : ∀ c r, r ≠ r0 → (a.columns x0 r0 row 8).fb.get c r = a.fb.get c r := by
      intro c r hr
      by_cases h' : c < 64 ∧ r < 32
      · rw [Canvas.get_columns _ _ _ _ _ (Nat.le_refl 8) _ _ h']; simp [hr]
      · rw [Framebuffer.get_outside _ h', Framebuffer.get_outside _ h']
    constructor
    · rintro ((h | ⟨c, -, h2, h3⟩) | ⟨c, r, h1, h2⟩)
      · exact .inl h
      · exact .inr ⟨c, r0, by simp [rowsBit_cons, h2], h3⟩
      · have hr : r ≠ r0 := by rintro rfl; simp [rowsBit] at h1
        exact .inr ⟨c, r, by simp [rowsBit_cons, hr, h1], by rwa [hcell c r hr] at h2⟩
    · rintro (h | ⟨c, r, h1, h2⟩)
      · exact .inl (.inl h)
      · rw [rowsBit_cons] at h1
        by_cases hr : r = r0
        · subst hr
          rw [if_pos rfl] at h1
          refine .inl (.inr ⟨c, ?_, h1, h2⟩)
          simp only [rowBit, Bool.and_eq_true, decide_eq_true_eq] at h1
          exact h1.1.2
        · rw [if_neg hr] at h1
          exact .inr ⟨c, r, h1, by rwa [hcell c r hr]⟩

end Sys2Proof.Machine
end

