-- ==== Sys2Proof/Laws/PerInstr.lean ====
section
/-! SUPPORT. Statements made per instruction. RowMatch: the word of an instruction has the fixed bits of its row of
spec/opcode_table.json. -/

namespace Sys2Proof.Laws.RowMatch

/-- The three shapes of a word, as numbers. -/
theorem word_nnn (t : Nibble) (nnn : Addr12) : BitVec.toNat (w := 16) (t ++ nnn) = t.toNat * 4096 + nnn.toNat :=
  toNat_append_eq t nnn

theorem word_xnn (t x : Nibble) (nn : Byte) :
    BitVec.toNat (w := 16) (t ++ x ++ nn) = t.toNat * 4096 + x.toNat * 256 + nn.toNat := by
  have h1 := toNat_append_eq (t ++ x) nn
  have h2 := toNat_append_eq t x
  refine h1.trans ?_
  rw [h2]; omega

theorem word_xyn (t x y n : Nibble) :
    BitVec.toNat (w := 16) (t ++ x ++ y ++ n) = t.toNat * 4096 + x.toNat * 256 + y.toNat * 16 + n.toNat := by
  have h1 := toNat_append_eq (t ++ x ++ y) n
  have h2 := toNat_append_eq (t ++ x) y
  have h3 := toNat_append_eq t x
  refine h1.trans ?_
  rw [h2, h3]; omega

/-- The fixed bits of an instruction's row: the lowest bit, how many bits, and their value. -/
def fixedBits : Instr → List (Nat × Nat × Nat)
  | .cls _ => [(12, 4, 0x0), (0, 8, 0xE0)]
  | .ret _ => [(12, 4, 0x0), (0, 8, 0xEE)]
  | .sys _ => [(12, 4, 0x0)]
  | .jp _ => [(12, 4, 0x1)]
  | .call _ => [(12, 4, 0x2)]
  | .seImm _ _ => [(12, 4, 0x3)]
  | .sneImm _ _ => [(12, 4, 0x4)]
  | .seReg _ _ _ => [(12, 4, 0x5)]
  | .ldImm _ _ => [(12, 4, 0x6)]
  | .addImm _ _ => [(12, 4, 0x7)]
  | .ldReg _ _ => [(12, 4, 0x8), (0, 4, 0x0)]
  | .orReg _ _ => [(12, 4, 0x8), (0, 4, 0x1)]
  | .andReg _ _ => [(12, 4, 0x8), (0, 4, 0x2)]
  | .xorReg _ _ => [(12, 4, 0x8), (0, 4, 0x3)]
  | .addReg _ _ => [(12, 4, 0x8), (0, 4, 0x4)]
  | .sub _ _ => [(12, 4, 0x8), (0, 4, 0x5)]
  | .shr _ _ => [(12, 4, 0x8), (0, 4, 0x6)]
  | .subn _ _ => [(12, 4, 0x8), (0, 4, 0x7)]
  | .shl _ _ => [(12, 4, 0x8), (0, 4, 0xE)]
  | .sneReg _ _ _ => [(12, 4, 0x9)]
  | .ldI _ => [(12, 4, 0xA)]
  | .jpOff _ => [(12, 4, 0xB)]
  | .rnd _ _ => [(12, 4, 0xC)]
  | .drw _ _ _ => [(12, 4, 0xD)]
  | .skp _ => [(12, 4, 0xE), (0, 8, 0x9E)]
  | .sknp _ => [(12, 4, 0xE), (0, 8, 0xA1)]
  | .ldVxDt _ => [(12, 4, 0xF), (0, 8, 0x7)]
  | .ldVxK _ => [(12, 4, 0xF), (0, 8, 0xA)]
  | .ldDtVx _ => [(12, 4, 0xF), (0, 8, 0x15)]
  | .ldStVx _ => [(12, 4, 0xF), (0, 8, 0x18)]
  | .addI _ => [(12, 4, 0xF), (0, 8, 0x1E)]
  | .ldF _ => [(12, 4, 0xF), (0, 8, 0x29)]
  | .ldB _ => [(12, 4, 0xF), (0, 8, 0x33)]
  | .ldMemVx _ => [(12, 4, 0xF), (0, 8, 0x55)]
  | .ldVxMem _ => [(12, 4, 0xF), (0, 8, 0x65)]

/-- The instruction's word agrees with its row on every fixed bit. -/
def Statement (i : Instr) : Prop :=
  ∀ f ∈ fixedBits i, (encode i).toNat / 2 ^ f.1 % 2 ^ f.2.1 = f.2.2

/-- Every instruction's word agrees with its row. -/
theorem every (i : Instr) : Statement i := by
  cases i <;>
    (simp only [Statement, fixedBits, encode, word_nnn, word_xnn, word_xyn, List.forall_mem_cons, List.not_mem_nil]
     simp
     omega)

theorem cls (x : Nibble) : Statement (.cls x) := every _

theorem ret (x : Nibble) : Statement (.ret x) := every _

theorem sys (nnn : Addr12) : Statement (.sys nnn) := every _

theorem jp (nnn : Addr12) : Statement (.jp nnn) := every _

theorem call (nnn : Addr12) : Statement (.call nnn) := every _

theorem seImm (x : Nibble) (nn : Byte) : Statement (.seImm x nn) := every _

theorem sneImm (x : Nibble) (nn : Byte) : Statement (.sneImm x nn) := every _

theorem seReg (x y n : Nibble) : Statement (.seReg x y n) := every _

theorem ldImm (x : Nibble) (nn : Byte) : Statement (.ldImm x nn) := every _

theorem addImm (x : Nibble) (nn : Byte) : Statement (.addImm x nn) := every _

theorem ldReg (x y : Nibble) : Statement (.ldReg x y) := every _

theorem orReg (x y : Nibble) : Statement (.orReg x y) := every _

theorem andReg (x y : Nibble) : Statement (.andReg x y) := every _

theorem xorReg (x y : Nibble) : Statement (.xorReg x y) := every _

theorem addReg (x y : Nibble) : Statement (.addReg x y) := every _

theorem sub (x y : Nibble) : Statement (.sub x y) := every _

theorem shr (x y : Nibble) : Statement (.shr x y) := every _

theorem subn (x y : Nibble) : Statement (.subn x y) := every _

theorem shl (x y : Nibble) : Statement (.shl x y) := every _

theorem sneReg (x y n : Nibble) : Statement (.sneReg x y n) := every _

theorem ldI (nnn : Addr12) : Statement (.ldI nnn) := every _

theorem jpOff (nnn : Addr12) : Statement (.jpOff nnn) := every _

theorem rnd (x : Nibble) (nn : Byte) : Statement (.rnd x nn) := every _

theorem drw (x y n : Nibble) : Statement (.drw x y n) := every _

theorem skp (x : Nibble) : Statement (.skp x) := every _

theorem sknp (x : Nibble) : Statement (.sknp x) := every _

theorem ldVxDt (x : Nibble) : Statement (.ldVxDt x) := every _

theorem ldVxK (x : Nibble) : Statement (.ldVxK x) := every _

theorem ldDtVx (x : Nibble) : Statement (.ldDtVx x) := every _

theorem ldStVx (x : Nibble) : Statement (.ldStVx x) := every _

theorem addI (x : Nibble) : Statement (.addI x) := every _

theorem ldF (x : Nibble) : Statement (.ldF x) := every _

theorem ldB (x : Nibble) : Statement (.ldB x) := every _

theorem ldMemVx (x : Nibble) : Statement (.ldMemVx x) := every _

theorem ldVxMem (x : Nibble) : Statement (.ldVxMem x) := every _

end Sys2Proof.Laws.RowMatch
end

