-- ==== Sys2Proof/Laws/Registers.lean ====
section
/-! SUPPORT. Reads of a register after a write of one, after a flag write and after a load of a range. -/

namespace Sys2Proof.Machine

@[simp] theorem State.reg_setReg_self (s : State) (x : Nibble) (b : Byte) : (s.setReg x b).reg x = b := by
  simp [State.reg]

theorem State.reg_setReg_ne (s : State) {x r : Nibble} (b : Byte) (h : r ≠ x) : (s.setReg x b).reg r = s.reg r := by
  have h' : x.toNat ≠ r.toNat := fun e => h (BitVec.eq_of_toNat_eq e.symm)
  simp [State.reg, h']

theorem State.reg_setReg (s : State) (x r : Nibble) (b : Byte) :
    (s.setReg x b).reg r = if r = x then b else s.reg r := by
  by_cases h : r = x
  · subst h; simp
  · simp [h, State.reg_setReg_ne s b h]

/-- A state with the same registers reads the same. -/
theorem State.reg_congr {s t : State} (h : t.v = s.v) (r : Nibble) : t.reg r = s.reg r := by simp [State.reg, h]

/-- After a result and a flag: VF holds the flag, V[x] the result unless x = 0xF, any other register is unchanged. -/
theorem State.reg_setResultFlag (s : State) (x r : Nibble) (b : Byte) (f : Bool) :
    (s.setResultFlag x b f).reg r = if r = vf then flagByte f else if r = x then b else s.reg r := by
  simp [State.setResultFlag, State.reg_setReg]

/-- A result and a flag change the registers only. -/
theorem State.setResultFlag_eq (s : State) (x : Nibble) (b : Byte) (f : Bool) :
    s.setResultFlag x b f = { s with v := (s.setResultFlag x b f).v } := rfl

/-- A load of a range changes the registers only. -/
theorem State.loadRegs_eq (s : State) (k : Nat) (bs : List Byte) :
    s.loadRegs k bs = { s with v := (s.loadRegs k bs).v } := by
  induction bs generalizing s k with
  | nil => rfl
  | cons b rest ih => simp only [State.loadRegs]; rw [ih]; rfl

/-- After a load of a range from V[k] on, within the sixteen: each register of the range holds its byte, any other is
unchanged. -/
theorem State.reg_loadRegs (s : State) (k : Nat) (bs : List Byte) (h : k + bs.length ≤ 16) (r : Nibble) :
    (s.loadRegs k bs).reg r =
      if k ≤ r.toNat ∧ r.toNat < k + bs.length then bs.getD (r.toNat - k) 0#8 else s.reg r := by
  induction bs generalizing s k with
  | nil => simp [State.loadRegs]
  | cons b rest ih =>
    simp only [List.length_cons] at h
    rw [State.loadRegs, ih _ _ (by omega), State.reg_setReg]
    have hk : r = BitVec.ofNat 4 k ↔ r.toNat = k := by
      constructor
      · rintro rfl; simp; omega
      · intro e; apply BitVec.eq_of_toNat_eq; simp; omega
    by_cases h1 : r.toNat = k
    · have h2 : ¬ (k + 1 ≤ r.toNat ∧ r.toNat < k + 1 + rest.length) := by omega
      simp [hk, h1]
    · by_cases h2 : k + 1 ≤ r.toNat ∧ r.toNat < k + 1 + rest.length
      · have h3 : k ≤ r.toNat ∧ r.toNat < k + (rest.length + 1) := by omega
        have h4 : r.toNat - k = (r.toNat - (k + 1)) + 1 := by omega
        simp [h2, h3, h4]
      · have h3 : ¬ (k ≤ r.toNat ∧ r.toNat < k + (rest.length + 1)) := by omega
        simp only [List.length_cons, if_neg h2, if_neg h3, if_neg (fun e => h1 (hk.1 e))]

theorem State.length_firstRegs (s : State) (n : Nat) (h : n ≤ 16) : (s.firstRegs n).length = n := by
  simp [State.firstRegs]; omega

/-- The k-th of the first registers is V[k]. -/
theorem State.getElem_firstRegs (s : State) (n : Nat) (k : Nibble) (h : k.toNat < (s.firstRegs n).length) :
    (s.firstRegs n)[k.toNat] = s.reg k := by
  simp [State.firstRegs, State.reg]

end Sys2Proof.Machine
end

