-- ==== Sys2Proof/Tests/Slice0.lean ====
section
/-! SUPPORT. Tests. Every expected value is taken from spec/95_test_vectors.md (the vector is named) or read off the rule named;
the words are written out from the patterns of spec/30_encoding.md R138. The last part shows, for each statement with
hypotheses, a state and operands that meet them. -/

namespace Sys2Proof.Tests

open Sys2Proof.Machine

/-! ### WellFormed: ill-formed terms are refused -/

/-- SYS with the low byte of CLS: that word is CLS (R140). -/
theorem test_wellFormed_refuses_sys_E0 : wellFormed (.sys 0x0E0) = false := by decide
theorem test_wellFormed_refuses_sys_EE : wellFormed (.sys 0x1EE) = false := by decide
theorem test_wellFormed_accepts_sys : wellFormed (.sys 0x1EF) = true := by decide

/-! ### Decoding: one word for every instruction, from R138 and spec/95_test_vectors.md 2.1 -/

theorem test_decode_cls : decodeWord 0x00E0#16 = .ok (.cls 0x0) := by decide
theorem test_decode_cls_x : decodeWord 0x01E0#16 = .ok (.cls 0x1) := by decide
theorem test_decode_ret : decodeWord 0x00EE#16 = .ok (.ret 0x0) := by decide
theorem test_decode_ret_x : decodeWord 0x05EE#16 = .ok (.ret 0x5) := by decide
theorem test_decode_sys : decodeWord 0x00FE#16 = .ok (.sys 0x0FE) := by decide
theorem test_decode_jp : decodeWord 0x1ABC#16 = .ok (.jp 0xABC) := by decide
theorem test_decode_call : decodeWord 0x2210#16 = .ok (.call 0x210) := by decide
theorem test_decode_seImm : decodeWord 0x3142#16 = .ok (.seImm 0x1 0x42) := by decide
theorem test_decode_sneImm : decodeWord 0x4143#16 = .ok (.sneImm 0x1 0x43) := by decide
theorem test_decode_seReg : decodeWord 0x5125#16 = .ok (.seReg 0x1 0x2 0x5) := by decide
theorem test_decode_ldImm : decodeWord 0x63A5#16 = .ok (.ldImm 0x3 0xA5) := by decide
theorem test_decode_addImm : decodeWord 0x7FF5#16 = .ok (.addImm 0xF 0xF5) := by decide
theorem test_decode_ldReg : decodeWord 0x8120#16 = .ok (.ldReg 0x1 0x2) := by decide
theorem test_decode_orReg : decodeWord 0x8121#16 = .ok (.orReg 0x1 0x2) := by decide
theorem test_decode_andReg : decodeWord 0x8122#16 = .ok (.andReg 0x1 0x2) := by decide
theorem test_decode_xorReg : decodeWord 0x8123#16 = .ok (.xorReg 0x1 0x2) := by decide
theorem test_decode_addReg : decodeWord 0x8F14#16 = .ok (.addReg 0xF 0x1) := by decide
theorem test_decode_sub : decodeWord 0x8F15#16 = .ok (.sub 0xF 0x1) := by decide
theorem test_decode_shr : decodeWord 0x8126#16 = .ok (.shr 0x1 0x2) := by decide
theorem test_decode_subn : decodeWord 0x8127#16 = .ok (.subn 0x1 0x2) := by decide
theorem test_decode_shl : decodeWord 0x812E#16 = .ok (.shl 0x1 0x2) := by decide
theorem test_decode_sneReg : decodeWord 0x9127#16 = .ok (.sneReg 0x1 0x2 0x7) := by decide
theorem test_decode_ldI : decodeWord 0xA123#16 = .ok (.ldI 0x123) := by decide
theorem test_decode_jpOff : decodeWord 0xB300#16 = .ok (.jpOff 0x300) := by decide
theorem test_decode_rnd : decodeWord 0xC30F#16 = .ok (.rnd 0x3 0x0F) := by decide
theorem test_decode_drw : decodeWord 0xD125#16 = .ok (.drw 0x1 0x2 0x5) := by decide
theorem test_decode_skp : decodeWord 0xE49E#16 = .ok (.skp 0x4) := by decide
theorem test_decode_sknp : decodeWord 0xE4A1#16 = .ok (.sknp 0x4) := by decide
theorem test_decode_ldVxDt : decodeWord 0xF307#16 = .ok (.ldVxDt 0x3) := by decide
theorem test_decode_ldVxK : decodeWord 0xF50A#16 = .ok (.ldVxK 0x5) := by decide
theorem test_decode_ldDtVx : decodeWord 0xF315#16 = .ok (.ldDtVx 0x3) := by decide
theorem test_decode_ldStVx : decodeWord 0xF318#16 = .ok (.ldStVx 0x3) := by decide
theorem test_decode_addI : decodeWord 0xF51E#16 = .ok (.addI 0x5) := by decide
theorem test_decode_ldF : decodeWord 0xF029#16 = .ok (.ldF 0x0) := by decide
theorem test_decode_ldB : decodeWord 0xFA33#16 = .ok (.ldB 0xA) := by decide
theorem test_decode_ldMemVx : decodeWord 0xF255#16 = .ok (.ldMemVx 0x2) := by decide
theorem test_decode_ldVxMem : decodeWord 0xF265#16 = .ok (.ldVxMem 0x2) := by decide
theorem test_decode_undefined_8 : decodeWord 0x812F#16 = .error (.undefinedType8 0x812F) := by decide
theorem test_decode_undefined_E : decodeWord 0xE1B1#16 = .error (.undefinedTypeE 0xE1B1) := by decide
theorem test_decode_undefined_F : decodeWord 0xF175#16 = .error (.undefinedTypeF 0xF175) := by decide
theorem test_decode_bytes : decode [0xA1#8, 0x23#8, 0x77#8] = .ok (.ldI 0x123, [0x77#8]) := by decide
theorem test_decode_one_byte : decode [0xA1#8] = .error .truncated := by decide
theorem test_decode_table_word : decodeTableWord 16 0x6F07 = some (.ldImm 0xF 0x07) := by decide

/-- Every pair of rows of R138 that could be confused by the low nibble alone is kept apart (R140). -/
theorem test_ambiguous : isAmbiguous 0x0000#16 = true ∧ isAmbiguous 0x0123#16 = false ∧ isAmbiguous 0x00FE#16 = true ∧
    isAmbiguous 0x00C4#16 = false ∧ isAmbiguous 0xE12E#16 = true ∧ isAmbiguous 0xE1A2#16 = false ∧
    isAmbiguous 0xE1B1#16 = true ∧ isAmbiguous 0xE19E#16 = false ∧ isAmbiguous 0xE1A1#16 = false := by decide

/-! ### One instruction tick -/

/-- The reset state with some registers set. -/
def regs : List (Nibble × Byte) → State
  | [] => State.reset
  | (x, b) :: rest => (regs rest).setReg x b

/-- One step from `s` with the word `w` at pc: whether it answers a next state in which `p` holds. -/
def after (s : State) (w : Nat) (p : State → Bool) : Bool :=
  match nextOf (step (s.withFetchWord 16 w)) with
  | some t => p t
  | none => false

/-- The record of a fault taken at 0x200. -/
def record (c : Cause) (w : Word) (info : Option Word) : Option FaultRecord := some ⟨c, 0x200#16, some w, info⟩

/-- The cells of the framebuffer that are set are exactly those listed. -/
def cellsAre (f : Framebuffer) (l : List (Nat × Nat)) : Bool :=
  (List.range 64).all fun c => (List.range 32).all fun r => f.get c r == l.contains (c, r)

/-- EX1, ALU1. -/
theorem test_ldImm : after (regs []) 0x63A5 (fun t => t.reg 3 == 0xA5 && t.pc == 0x202) = true := by decide
/-- ALU3. -/
theorem test_addImm : after (regs [(2, 0xFF), (0xF, 0x55)]) 0x7202 (fun t => t.reg 2 == 0x01 && t.reg 0xF == 0x55) = true := by
  decide
/-- ALU4. -/
theorem test_addImm_vf : after (regs [(0xF, 0x10)]) 0x7FF5 (fun t => t.reg 0xF == 0x05) = true := by decide
/-- ALU5. -/
theorem test_ldReg : after (regs [(1, 0x12), (2, 0x34)]) 0x8120 (fun t => t.reg 1 == 0x34 && t.reg 2 == 0x34) = true := by
  decide
/-- ALU6. -/
theorem test_orReg : after (regs [(1, 0xF0), (2, 0x0F), (0xF, 1)]) 0x8121 (fun t => t.reg 1 == 0xFF && t.reg 0xF == 0) = true := by
  decide
/-- ALU7. -/
theorem test_andReg : after (regs [(1, 0xF0), (2, 0x3C), (0xF, 1)]) 0x8122 (fun t => t.reg 1 == 0x30 && t.reg 0xF == 0) = true := by
  decide
/-- ALU8. -/
theorem test_xorReg : after (regs [(1, 0xFF), (2, 0x0F), (0xF, 1)]) 0x8123 (fun t => t.reg 1 == 0xF0 && t.reg 0xF == 0) = true := by
  decide
/-- ALU10: the sum is lost, VF holds the carry. -/
theorem test_addReg_vf : after (regs [(0xF, 0x90), (1, 0x90)]) 0x8F14 (fun t => t.reg 0xF == 1) = true := by decide
/-- EX3, the boundary 255. -/
theorem test_addReg_boundary : after (regs [(1, 0xFF)]) 0x8124 (fun t => t.reg 1 == 0xFF && t.reg 0xF == 0) = true := by decide
/-- EX4, equal operands. -/
theorem test_sub_equal : after (regs [(1, 0x05), (2, 0x05)]) 0x8125 (fun t => t.reg 1 == 0 && t.reg 0xF == 1) = true := by decide
/-- EX4, borrow. -/
theorem test_sub_borrow : after (regs [(1, 0x04), (2, 0x05)]) 0x8125 (fun t => t.reg 1 == 0xFF && t.reg 0xF == 0) = true := by
  decide
/-- ALU14. -/
theorem test_subn_borrow : after (regs [(1, 0x05), (2, 0x03)]) 0x8127 (fun t => t.reg 1 == 0xFE && t.reg 0xF == 0) = true := by
  decide
/-- ALU15. -/
theorem test_subn : after (regs [(1, 0x03), (2, 0x05)]) 0x8127 (fun t => t.reg 1 == 0x02 && t.reg 0xF == 1) = true := by decide
/-- ALU17, EX10, legacy. -/
theorem test_shr_legacy : after (withQuirk .legacy (regs [(1, 0x03), (2, 0x80)])) 0x8126
    (fun t => t.reg 1 == 0x40 && t.reg 0xF == 0) = true := by decide
/-- ALU17, EX10, modern. -/
theorem test_shr_modern : after (withQuirk .modern (regs [(1, 0x03), (2, 0x80)])) 0x8126
    (fun t => t.reg 1 == 0x01 && t.reg 0xF == 1) = true := by decide
/-- ALU18, legacy. -/
theorem test_shl_legacy : after (withQuirk .legacy (regs [(1, 0x81), (2, 0x40)])) 0x812E
    (fun t => t.reg 1 == 0x80 && t.reg 0xF == 0) = true := by decide
/-- ALU18, modern. -/
theorem test_shl_modern : after (withQuirk .modern (regs [(1, 0x81), (2, 0x40)])) 0x812E
    (fun t => t.reg 1 == 0x02 && t.reg 0xF == 1) = true := by decide
/-- ALU24: whatever the draw, V3 is 0, and one byte is drawn. -/
theorem test_rnd : exec (.rnd 3 0x00) (regs [(3, 0x77)]) =
    .next { (regs [(3, 0x77)]).setReg 3 (Config.freeByte 0 &&& 0x00#8) with draws := 1 } := rfl
/-- CF1. -/
theorem test_sys : after (regs []) 0x0123 (fun t => t.unknownOpcode == some ⟨0x200, 0x0123⟩ && t.pc == 0x202) = true := by
  decide
/-- CF2. -/
theorem test_jp : after (regs []) 0x1ABC (fun t => t.pc == 0xABC) = true := by decide
/-- CF6. -/
theorem test_call : after { regs [] with pc := 0x204 } 0x2210 (fun t => t.stack == [0x206] && t.pc == 0x210) = true := by decide
/-- CF9, FLT6. -/
theorem test_call_full : after { regs [] with pc := 0x300, stack := List.replicate 16 0x202#16 } 0x2400
    (fun t => t.engine == .halted .stackOverflow && t.pc == 0x302 && t.stack.length == 16 &&
      t.faultRec == some ⟨.stackOverflow, 0x300, some 0x2400, some 0x302⟩) = true := by decide
/-- CF7. -/
theorem test_ret : after { regs [] with pc := 0x212, stack := [0x206#16] } 0x00EE (fun t => t.stack == [] && t.pc == 0x206) =
    true := by decide
/-- CF8, FLT7. -/
theorem test_ret_empty : after (regs []) 0x00EE
    (fun t => t.faultRec == record .stackUnderflow 0x00EE none && t.pc == 0x202) = true := by decide
/-- EX8. -/
theorem test_seImm : after (regs [(1, 0x42)]) 0x3142 (fun t => t.pc == 0x204) = true := by decide
/-- CF13. -/
theorem test_sneImm : after (regs [(1, 0x42)]) 0x4143 (fun t => t.pc == 0x204) = true := by decide
/-- CF18: n is ignored. -/
theorem test_seReg : after (regs [(1, 0x07), (2, 0x07)]) 0x5125 (fun t => t.pc == 0x204) = true := by decide
/-- CF17. -/
theorem test_sneReg : after (regs [(1, 0x07), (2, 0x08)]) 0x9120 (fun t => t.pc == 0x204) = true := by decide
/-- CF16. -/
theorem test_sneReg_same : after (regs [(1, 0x07)]) 0x9110 (fun t => t.pc == 0x202) = true := by decide
/-- CF20, legacy. -/
theorem test_jpOff_legacy : after (withQuirk .legacy (regs [(0, 0x10), (3, 0x05)])) 0xB300 (fun t => t.pc == 0x310) = true := by
  decide
/-- CF20, modern, base NNN. -/
theorem test_jpOff_modern : after (withQuirk .modern (regs [(0, 0x10), (3, 0x05)])) 0xB300 (fun t => t.pc == 0x305) = true := by
  decide
/-- MEM1. -/
theorem test_ldI : after (regs []) 0xA123 (fun t => t.iReg == 0x123) = true := by decide
/-- MEM4. -/
theorem test_addI : after { regs [(5, 0x02), (0xF, 0x77)] with iReg := 0xFFFF } 0xF51E
    (fun t => t.iReg == 0x0001 && t.reg 0xF == 0x77) = true := by decide
/-- MEM6. -/
theorem test_ldF : after (regs [(0, 0x1A)]) 0xF029 (fun t => t.iReg == 0x082) = true := by decide
/-- MEM9. -/
theorem test_ldB : after { regs [(0xA, 0x9C)] with iReg := 0x300 } 0xFA33
    (fun t => t.readBytes 0x300 3 == [1, 5, 6] && t.iReg == 0x300) = true := by decide
/-- MEM14, FLT8. -/
theorem test_ldB_outside : after { regs [(0xA, 0x7B)] with iReg := 0xFFE } 0xFA33
    (fun t => t.faultRec == record .memoryOutOfRange 0xFA33 (some 0x1000) && t.readBytes 0xFFE 2 == [0, 0]) = true := by decide
/-- MEM16, legacy. -/
theorem test_ldMemVx_legacy : after (withQuirk .legacy { regs [(0, 0x11), (1, 0x22), (2, 0x33)] with iReg := 0x400 }) 0xF255
    (fun t => t.readBytes 0x400 4 == [0x11, 0x22, 0x33, 0] && t.iReg == 0x403) = true := by decide
/-- MEM19, modern. -/
theorem test_ldMemVx_modern : after (withQuirk .modern { regs [(0, 0x11)] with iReg := 0xFFF }) 0xF055
    (fun t => t.readByte 0xFFF == 0x11 && t.iReg == 0xFFF) = true := by decide
/-- MEM21, modern, with the bytes of MEM9. -/
theorem test_ldVxMem : after (withQuirk .modern ({ regs [(3, 9)] with iReg := 0x300 }.writeBytes 0x300 [1, 5, 6, 7])) 0xF265
    (fun t => t.reg 0 == 1 && t.reg 1 == 5 && t.reg 2 == 6 && t.reg 3 == 9 && t.iReg == 0x300) = true := by decide
/-- MEM23. -/
theorem test_ldVxMem_outside : after { regs [(0, 4)] with iReg := 0x1000 } 0xF065
    (fun t => t.faultRec == record .memoryOutOfRange 0xF065 (some 0x1000) && t.reg 0 == 4 && t.iReg == 0x1000) = true := by
  decide
/-- DSP1. -/
theorem test_cls : after { regs [] with fb := Framebuffer.flip State.reset.fb 63 31 } 0x00E0
    (fun t => cellsAre t.fb [] && t.changed) = true := by decide +kernel
/-- DSP2: glyph A clipped at both edges. -/
theorem test_drw_clip : after { regs [(1, 0x7E), (2, 0x3E)] with iReg := 0x082 } 0xD125
    (fun t => cellsAre t.fb [(62, 30), (63, 30), (62, 31)] && t.reg 0xF == 0 && t.changed) = true := by decide +kernel
/-- DSP8: a collision. -/
theorem test_drw_collision : after ({ regs [(1, 0x3C)] with iReg := 0x300, fb := Framebuffer.flip State.reset.fb 61 0 }.writeBytes
      0x300 [0xFF]) 0xD121
    (fun t => cellsAre t.fb [(60, 0), (62, 0), (63, 0)] && t.reg 0xF == 1) = true := by decide +kernel
/-- KEY1. -/
theorem test_skp : after { regs [(4, 0x0A)] with pc := 0x300, key := applyKeys State.reset.key [(0xA, true)] } 0xE49E
    (fun t => t.pc == 0x304) = true := by decide
/-- KEY5. -/
theorem test_skp_outside : after (regs [(4, 0x10)]) 0xE49E
    (fun t => t.faultRec == record .keyIndexOutOfRange 0xE49E (some 0x10) && t.pc == 0x202) = true := by decide
/-- KEY3. -/
theorem test_sknp : after { regs [(4, 0x0A)] with pc := 0x300 } 0xE4A1 (fun t => t.pc == 0x304) = true := by decide
/-- KEY6. -/
theorem test_sknp_outside : after (regs [(4, 0xFF)]) 0xE4A1
    (fun t => t.faultRec == record .keyIndexOutOfRange 0xE4A1 (some 0xFF)) = true := by decide
/-- KEY7. -/
theorem test_ldVxDt : after { regs [] with dt := 0x2A } 0xF307 (fun t => t.reg 3 == 0x2A) = true := by decide
/-- KEY8. -/
theorem test_ldDtVx : after (regs [(3, 0x3C)]) 0xF315 (fun t => t.dt == 0x3C && t.st == 0) = true := by decide
/-- KEY9. -/
theorem test_ldStVx : after (regs [(3, 0x05)]) 0xF318 (fun t => t.st == 0x05 && t.dt == 0) = true := by decide
/-- KEY13. -/
theorem test_ldVxK : after { regs [] with pc := 0x210, key := applyKeys State.reset.key [(3, true)] } 0xF50A
    (fun t => t.engine == .awaitingKey 5 && t.pc == 0x212 && t.keyLatch[3] && !t.keyLatch[2] && t.reg 5 == 0) = true := by decide
/-- ALU22: an undefined word is logged and changes nothing but pc. -/
theorem test_undefined : after (regs [(1, 0x12), (2, 0x34)]) 0x8128
    (fun t => t.unknownOpcode == some ⟨0x200, 0x8128⟩ && t.pc == 0x202 && t.reg 1 == 0x12 && t.reg 0xF == 0) = true := by decide

/-! ### The keypad wait, the clock and boot -/

/-- A state in AWAITING_KEY(5) with an instruction period in acc_i. -/
def waiting (p : KeyWaitPolicy) (latch key : List (Nibble × Bool)) : State :=
  { State.reset with
    cfg := { State.reset.cfg with keyWait := p }
    engine := .awaitingKey 5
    phase := .inside
    accI := instrPeriod State.reset.cfg
    keyLatch := ({ State.reset with key := applyKeys State.reset.key latch }).keysNow
    key := applyKeys State.reset.key key }

/-- KEY14, edge and level. -/
theorem test_wait_held : (nextOf (step (waiting .edge [(3, true)] [(3, true)]))).map (fun t => (t.engine, t.reg 5)) =
      some (.awaitingKey 5, 0x00) ∧
    (nextOf (step (waiting .level [(3, true)] [(3, true)]))).map (fun t => (t.engine, t.reg 5)) = some (.running, 0x03) := by
  decide +kernel
/-- KEY15: the lowest index. -/
theorem test_wait_lowest : (nextOf (step (waiting .edge [] [(7, true), (3, true)]))).map (fun t => (t.engine, t.reg 5, t.pc)) =
    some (.running, 0x03, 0x200) := by decide +kernel
/-- KEY17: the latch follows the keypad. -/
theorem test_wait_release : (nextOf (step (waiting .edge [(3, true)] []))).map (fun t => (t.engine, t.keyLatch[3])) =
    some (.awaitingKey 5, false) := by decide +kernel

/-- A state with a timer period in acc_t and no instruction period in acc_i. -/
def timerComes (e : Engine) (dt st : Byte) : State :=
  { State.reset with engine := e, phase := .inside, accT := timerPeriod, dt := dt, st := st }

/-- KEY11, KEY12, KEY18: the timers stop at zero and run during a wait. -/
theorem test_timer_tick : (nextOf (step (timerComes .running 3 0))).map (fun t => (t.dt, t.st)) = some (0x02, 0x00) ∧
    (nextOf (step (timerComes .running 0 1))).map (fun t => (t.dt, t.st)) = some (0x00, 0x00) ∧
    (nextOf (step (timerComes (.awaitingKey 5) 5 0))).map (fun t => (t.dt, t.engine)) = some (0x04, .awaitingKey 5) := by
  decide +kernel

/-- CLK1 to CLK3 count the ticks of an iteration from what the accumulators hold: 11 and 1 at 1/60, 12 at 1/60 + 1/1050. -/
theorem test_ticks_due : dueTicks (1 / 60) (instrPeriod bootConfig) = 11 ∧ dueTicks (1 / 60) timerPeriod = 1 ∧
    dueTicks (1 / 1050 + 1 / 60) (instrPeriod bootConfig) = 12 ∧ dueTicks (1 / 120) (instrPeriod bootConfig) = 5 ∧
    dueTicks (1 / 6) (instrPeriod bootConfig) = 116 := by decide +kernel

/-- FLT2, FLT3, FLT4 and the last fetchable address 0xFFE. -/
theorem test_fetch_check : fetchCheck bootConfig 0xFFF = some .misalignedFetch ∧
    fetchCheck { bootConfig with oddPc := .execute } 0xFFF = some .fetchOutOfRange ∧
    fetchCheck bootConfig 0x1000 = some .fetchOutOfRange ∧ fetchCheck bootConfig 0xFFE = none ∧
    fetchCheck { bootConfig with oddPc := .execute } 0x201 = none := by decide

/-- BOOT1. -/
theorem test_boot : (nextOf (boot bootConfig (.bytes [0x00, 0xE0, 0x12, 0x00]) [])).map
    (fun t => (t.readBytes 0x1FF 6, t.readBytes 0x09B 6, t.pc)) =
    some ([0, 0x00, 0xE0, 0x12, 0x00, 0], [0xF0, 0x80, 0xF0, 0x80, 0x80, 0], 0x200) := by decide
/-- BOOT5, BOOT6, BOOT7. -/
theorem test_boot_capacity : boot { bootConfig with stackCapacity := 17 } .loadFailure [] = .fault .stackCeilingExceeded ∧
    boot { bootConfig with stackCapacity := 0 } .loadFailure [] = .fault .stackCeilingExceeded ∧
    (nextOf (boot { bootConfig with stackCapacity := 1 } .loadFailure [])).isSome = true := ⟨rfl, rfl, rfl⟩
/-- The memory of the reset state has the canonical form, and a write keeps it: a byte equal to the background lists nothing. -/
theorem test_memory_canonical : State.reset.mem.wf State.reset.cfg = true ∧
    ((State.reset.writeBytes 0x300 [1, 2]).writeBytes 0x300 [0, 0]).mem = ⟨[]⟩ ∧
    ((State.reset.writeBytes 0x050 [0]).writeBytes 0x050 [0xF0]).mem = ⟨[]⟩ := by decide

/-! ### Witnesses: the hypotheses of each statement are met, each clause at the boundary of its range -/

/-- The reset state with a word placed at pc and the divider set for an instruction tick. -/
def placed (w : Nat) : State := State.reset.withFetchWord 16 w

/-- `placed` with strict decoding. -/
def placedStrict (w : Nat) : State := { placed w with cfg := { bootConfig with strictSecondary := true } }

/-- `placed` with another pc. -/
def placedAt (pc : Word) (p : OddPcPolicy) : State := { placed 0x00E0 with pc := pc, cfg := { bootConfig with oddPc := p } }

/-- A host input without a key, with a delta of 1/60 second. -/
def idleInput : HostInput := { keys := [], quit := false, deltaNum := 1, deltaDen := 60 }

/-- The premise of a statement about a step of a program: a tick comes, RUNNING, no fetch fault, the word at pc. -/
def premise (s : State) (w : Word) : Prop :=
  tickComes s ∧ s.engine = .running ∧ fetchable s ∧ isWordAtPc w s

theorem witness_placed : premise (placed 0x63A5) 0x63A5 := by
  unfold premise tickComes fetchable isWordAtPc; decide +kernel

theorem witness_DecodeOfEncodeIsIdentity : wellFormed (.sys 0x0DF) = true ∧ wellFormed (.sys 0xFFF) = true := by decide

theorem witness_EncodeOfDecodeIsIdentity : decodeWord 0x0000#16 = .ok (.sys 0) ∧ decodeWord 0xDFFF#16 = .ok (.drw 15 15 15) := by
  decide

theorem witness_BootBuildsTheMachine : (RomInput.bytes (List.replicate 3584 0#8)).contents.length ≤ 3584 ∧
    RomInput.loadFailure.contents.length ≤ 3584 ∧ 1 ≤ bootConfig.stackCapacity ∧ bootConfig.stackCapacity ≤ 16 ∧
    ({ bootConfig with fontBase := 0x1B0 } : Config).fontBase + 80 ≤ 0x200 := by
  refine ⟨(List.length_replicate (n := 3584)).le, by decide, by decide, by decide, by decide⟩

theorem witness_BootRefusesBadConfiguration :
    ({ bootConfig with stackCapacity := 0 } : Config).stackCapacity = 0 ∧
    16 < ({ bootConfig with stackCapacity := 17 } : Config).stackCapacity ∧
    3584 < (RomInput.bytes (List.replicate 3585 0#8)).contents.length := by
  refine ⟨rfl, by decide, ?_⟩
  exact Nat.lt_of_lt_of_eq (by decide : 3584 < 3585) (List.length_replicate (n := 3585)).symm

theorem witness_StepRunsDecodedInstruction : premise (placed 0x63A5) 0x63A5 ∧ decodeWord 0x63A5#16 = .ok (.ldImm 3 0xA5) ∧
    (placed 0x63A5).cfg.strictSecondary = false := ⟨witness_placed, by decide, by decide⟩

theorem witness_FetchFaultsHaltAtTheAddress :
    (tickComes (placedAt 0xFFF .fault) ∧ (placedAt 0xFFF .fault).engine = .running) ∧
    (tickComes (placedAt 0xFFF .execute) ∧ (placedAt 0xFFF .execute).engine = .running) ∧
    (tickComes (placedAt 0xFFE .fault) ∧ (placedAt 0xFFE .fault).engine = .running) := by
  unfold tickComes; decide +kernel

theorem witness_UndefinedWordIsLoggedNoOp : (premise (placed 0x8128) 0x8128 ∧
      decodeWord 0x8128#16 = .error (.undefinedType8 0x8128) ∧ (placed 0x8128).cfg.strictSecondary = false) ∧
    (0x0DF#12).toNat % 256 ≠ 0xE0 ∧ (0x0DF#12).toNat % 256 ≠ 0xEE := by
  unfold premise tickComes fetchable isWordAtPc; decide +kernel

theorem witness_StrictDecodeHaltsOnAmbiguousWord : (premise (placedStrict 0x01E0) 0x01E0 ∧
      (placedStrict 0x01E0).cfg.strictSecondary = true ∧ isAmbiguous 0x01E0#16 = true) ∧
    (State.reset.cfg.strictSecondary = false ∧ State.reset.engine = .running ∧
      State.reset.dispatch 0x00E0 = .next (State.reset.present Framebuffer.clear)) := by
  refine ⟨?_, rfl, rfl, rfl⟩
  unfold premise tickComes fetchable isWordAtPc; decide +kernel

theorem witness_KeyWaitTickEndsOnLowestKey :
    (tickComes (waiting .edge [] []) ∧ (waiting .edge [] []).engine = .awaitingKey 5 ∧
      ∀ k, (waiting .edge [] []).keyQualifies k = false) ∧
    (tickComes (waiting .edge [] [(0xF, true)]) ∧ (waiting .edge [] [(0xF, true)]).keyQualifies 0xF = true ∧
      ∀ j : Nibble, j.toNat < (0xF : Nibble).toNat → (waiting .edge [] [(0xF, true)]).keyQualifies j = false) ∧
    (tickComes (waiting .level [(0, true)] [(0, true)]) ∧ (waiting .level [(0, true)] [(0, true)]).keyQualifies 0 = true ∧
      ∀ j : Nibble, j.toNat < (0x0 : Nibble).toNat → (waiting .level [(0, true)] [(0, true)]).keyQualifies j = false) := by
  unfold tickComes; decide +kernel

theorem witness_ChangedOnlyAfterClsAndDrw : tickComes (placed 0x00E0) ∧
    (∃ t, step (placed 0x00E0) = .next t ∧ t.changed = true) ∧ ∃ s : State, s.engine = .halted .stackOverflow := by
  refine ⟨by unfold tickComes; decide +kernel, ⟨_, rfl, rfl⟩, { State.reset with engine := .halted .stackOverflow }, rfl⟩

theorem witness_FaultsArePrecise :
    ((placed 0x00EE).isHalted = false ∧ ∃ t, step (placed 0x00EE) = .next t ∧ t.engine = .halted .stackUnderflow) ∧
    ((placedAt 0xFFF .fault).isHalted = false ∧
      ∃ t, step (placedAt 0xFFF .fault) = .next t ∧ t.engine = .halted .misalignedFetch) :=
  ⟨⟨rfl, _, rfl, rfl⟩, ⟨rfl, _, rfl, rfl⟩⟩

theorem witness_HaltedIsAbsorbing : ∃ s : State, s.engine = .halted .stackOverflow := ⟨{ State.reset with engine := .halted .stackOverflow }, rfl⟩

theorem witness_TimerTickCountsBothDown : (timerComes .running 1 0).phase = .inside ∧ (timerComes .running 1 0).isHalted = false ∧
    (timerComes .running 1 0).accI < instrPeriod (timerComes .running 1 0).cfg ∧ 1 / 60 ≤ (timerComes .running 1 0).accT := by
  decide +kernel

theorem witness_TimerPeriodsCountExactly : ∃ s : State, s.phase = .inside ∧ s.isHalted = false ∧
    s.accI < instrPeriod s.cfg ∧ ((2 : Nat) : Rat) / 60 ≤ s.accT :=
  ⟨{ timerComes .running 1 5 with accT := 1 / 30 }, by decide +kernel⟩

theorem witness_InstructionLoopSpendsWholePeriods : (placed 0x63A5).cfg.wf = true ∧ 0 ≤ (placed 0x63A5).accI ∧
    dueTicks (placed 0x63A5).accI (instrPeriod (placed 0x63A5).cfg) = 1 ∧
    ((nextOf (State.instructionLoop 1 (placed 0x63A5))).map fun t => (t.isHalted, t.reg 3)) = some (false, 0xA5) := by
  decide +kernel

/-- The reset state with one host input to come, and with one that quits. -/
def nextInputs (quit : Bool) : State := State.booted bootConfig [{ idleInput with quit := quit }]

/-- An input that lets the run go on, one that ends it, and an empty queue. -/
theorem witness_IterationStartTakesHostInput :
    ((nextInputs false).phase = .between ∧ (nextInputs false).inputs = [idleInput] ∧ (nextInputs false).running = true ∧
      idleInput.quit = false ∧ (nextInputs false).isHalted = false) ∧
    ((nextInputs true).phase = .between ∧ (nextInputs true).inputs = [{ idleInput with quit := true }]) ∧
    (State.reset.phase = .between ∧ State.reset.inputs = []) := by decide

/-- A frame that an earlier iteration drew does not count for the next one (R356 step 5). -/
theorem test_iteration_start_clears_frame :
    (nextOf (step { nextInputs false with frameChanged := true })).map (fun t => t.frameChanged) = some false := by
  decide +kernel

/-- A key not listed; a key whose last transition stands before another key's, and the last key of the keypad. -/
theorem witness_KeyTransitionsReachSixteenKeys :
    (∀ p ∈ [((0xF : Nibble), true)], p.1 ≠ (0x0 : Nibble)) ∧ (∀ p ∈ [((7 : Nibble), true)], p.1 ≠ (3 : Nibble)) ∧
    (∀ p ∈ ([] : List (Nibble × Bool)), p.1 ≠ (0xF : Nibble)) := by decide

/-- Keys 3 and 7 in one iteration: each takes its own last transition (R356 step 1). -/
theorem test_key_transitions_of_two_keys :
    (applyKeys State.reset.key [(3, false), (3, true), (7, true)])[3] = true ∧
    (applyKeys State.reset.key [(3, false), (3, true), (7, true)])[7] = true := by decide

theorem witness_IterationEndSamplesOutputs :
    ∃ s : State, s.phase = .inside ∧ s.isHalted = false ∧ s.accI < instrPeriod s.cfg ∧ s.accT < 1 / 60 :=
  ⟨{ State.reset with phase := .inside }, by decide +kernel⟩

theorem witness_HaltedIterationStillSamplesOutputs : ∃ s : State, s.phase = .inside ∧ s.isHalted = true :=
  ⟨{ State.reset with phase := .inside, engine := .halted .stackOverflow }, by decide⟩

theorem witness_EndedRunStaysAsItIs : ∃ s : State, s.phase = .ended := ⟨{ State.reset with phase := .ended }, rfl⟩

theorem witness_StepsRefineOuterIteration : (nextInputs false).phase = .between ∧ (nextInputs false).cfg.wf = true ∧
    0 ≤ (nextInputs false).accI ∧ 0 ≤ (nextInputs false).accT := by decide +kernel

/-- A state inside an iteration that meets the invariant, and its step. -/
theorem witness_StepKeepsInvariant : State.Inv { State.reset with phase := .inside } ∧
    step { State.reset with phase := .inside } = .next { State.reset with phase := .between } := by
  refine ⟨⟨by decide, by decide, by decide, by decide, rfl, by decide +kernel, fun h => nomatch h⟩, ?_⟩
  have h : State.nextEvent { State.reset with phase := .inside } = .next { State.reset with phase := .between } := by
    have h1 : State.instrDue { State.reset with phase := .inside } = false := by decide +kernel
    have h2 : State.timerDue { State.reset with phase := .inside } = false := by decide +kernel
    simp only [State.nextEvent, h1, h2]; rfl
  exact h

theorem witness_ConfigurationNeverChanges : ∃ t, Sys2Proof.core.run 1 (nextInputs false) = .next t := ⟨_, rfl⟩

theorem witness_HostInputsLandBetweenIterations : (placed 0x63A5).phase ≠ .between ∧ ∃ t, step (placed 0x63A5) = .next t :=
  ⟨by decide, _, rfl⟩

theorem witness_QuirkReachesExactlyFiveInstructions : consultsQuirk (.jp 0x300) = false ∧
    exec (.jp 0x300) State.reset = .next (State.reset.setPc 0x300) ∧
    exec (.orReg 1 2) State.reset = .next (State.reset.setResultFlag 1 0 false) := ⟨rfl, rfl, rfl⟩

theorem witness_InstructionsWriteOnlyTheirOwn : exec (.drw 0xF 0 0) (regs [(0xF, 1)]) =
      .next (((regs [(0xF, 1)]).present State.reset.fb).setReg 0xF 0) ∧ ¬ mayWriteReg (.drw 0xF 0 0) 0 :=
  ⟨rfl, by unfold mayWriteReg; decide⟩

theorem witness_TimersMoveOnlyByTickOrSet :
    ((nextOf (step (timerComes .running 1 0))).map fun t => t.dt) = some 0x00 ∧ (timerComes .running 1 0).dt = 0x01 ∧
    ((nextOf (step ((regs [(3, 5)]).withFetchWord 16 0xF315))).map fun t => t.dt) = some 0x05 := by decide +kernel

theorem witness_MemoryReadsLastWrite : State.reset.mem.wf State.reset.cfg = true ∧ (0 : Nat) < 4096 ∧ (4095 : Nat) < 4096 := by
  decide

theorem witness_StoredWordIsFetchedNext : 1 ≤ (1 : Nibble).toNat ∧ ({ State.reset with iReg := 0x200 } : State).iReg =
    ({ State.reset with iReg := 0x200 } : State).pc ∧ (0x200#16).toNat + (1 : Nibble).toNat < 4096 := by decide

theorem witness_ShiftsMoveQuirkSource : (withQuirk .legacy State.reset).cfg.quirk = .legacy ∧
    (withQuirk .modern State.reset).cfg.quirk = .modern := ⟨rfl, rfl⟩

theorem witness_CallPushesReturnAddress : State.reset.stack.length ≠ State.reset.cfg.stackCapacity ∧
    ({ State.reset with stack := List.replicate 16 0x202#16 } : State).stack.length = State.reset.cfg.stackCapacity := by decide

theorem witness_RetPopsReturnAddress : ({ State.reset with stack := [0x206#16] } : State).stack = 0x206#16 :: [] ∧
    State.reset.stack = [] := ⟨rfl, rfl⟩

theorem witness_NestedCallsReturnInOrder : State.reset.stack.length + (List.replicate 16 (0x202#16, 0x300#12)).length =
    State.reset.cfg.stackCapacity := by decide

theorem witness_JpOffAddsRegisterToBase : (withQuirk .legacy State.reset).cfg.quirk = .legacy ∧
    ((withQuirk .modern State.reset).cfg.quirk = .modern ∧ (withQuirk .modern State.reset).cfg.bxnnBase = .nnn) ∧
    ({ bootConfig with quirk := .modern, bxnnBase := .nn } : Config).bxnnBase = .nn := ⟨rfl, ⟨rfl, rfl⟩, rfl⟩

theorem witness_IndexArithmeticWritesOnlyIndex : ({ bootConfig with fontBase := 0x1B0 } : Config).fontBase + 80 ≤ 0x200 := by decide

theorem witness_LdBStoresDecimalDigits : ({ State.reset with iReg := 0xFFD } : State).iReg.toNat + 2 < 4096 ∧
    ({ State.reset with iReg := 0xFFD } : State).mem.wf bootConfig = true ∧
    4096 ≤ ({ State.reset with iReg := 0xFFE } : State).iReg.toNat + 2 := by decide

/-- x = 0 and x = 15, each at the last address that fits and at the first that does not. -/
theorem witness_LdMemVxStoresRegisterRange : ({ State.reset with iReg := 0xFFF } : State).iReg.toNat + (0 : Nibble).toNat < 4096 ∧
    ({ State.reset with iReg := 0xFF0 } : State).iReg.toNat + (0xF : Nibble).toNat < 4096 ∧
    4096 ≤ ({ State.reset with iReg := 0x1000 } : State).iReg.toNat + (0 : Nibble).toNat ∧
    4096 ≤ ({ State.reset with iReg := 0xFF1 } : State).iReg.toNat + (0xF : Nibble).toNat ∧
    State.reset.mem.wf State.reset.cfg = true := by decide

theorem witness_LdVxMemLoadsRegisterRange : ({ State.reset with iReg := 0xFFF } : State).iReg.toNat + (0 : Nibble).toNat < 4096 ∧
    4096 ≤ ({ State.reset with iReg := 0xFF1 } : State).iReg.toNat + (0xF : Nibble).toNat ∧
    (withQuirk .legacy State.reset).cfg.quirk = .legacy ∧ (withQuirk .modern State.reset).cfg.quirk = .modern := by decide

/-- n = 0 at any I; n = 1 at the last row that fits and at the first that does not. -/
theorem witness_DrwXorsSpriteAndReportsCollision : (0 : Nibble).toNat = 0 ∧
    ({ State.reset with iReg := 0xFFF } : State).iReg.toNat + (1 : Nibble).toNat ≤ 4096 ∧
    (1 : Nibble).toNat ≠ 0 ∧ 4096 < ({ State.reset with iReg := 0x1000 } : State).iReg.toNat + (1 : Nibble).toNat := by decide

/-- Both parts: a step that draws on a set cell, and DSP4 drawn a second time from V1 = V2 = 0x40, the same place modulo the
grid. -/
theorem witness_FramebufferPersistsAndDrwIsSelfInverse :
    (∃ t, step { placed 0x00E0 with fb := Framebuffer.flip State.reset.fb 0 0 } = .next t ∧
      t.fb.get 0 0 ≠ ({ placed 0x00E0 with fb := Framebuffer.flip State.reset.fb 0 0 } : State).fb.get 0 0) ∧
    (∃ t u : State, exec (.drw 1 2 5) { State.reset with iReg := 0x050 } = .next t ∧ u.fb = t.fb ∧ u.iReg = 0x050 ∧
      u.mem = State.reset.mem ∧ u.cfg = State.reset.cfg ∧ (u.reg 1).toNat % 64 = (State.reset.reg 1).toNat % 64 ∧
      (u.reg 2).toNat % 32 = (State.reset.reg 2).toNat % 32) :=
  ⟨⟨_, rfl, by decide⟩, ⟨_, ((({ State.reset with iReg := 0x050 } : State).present
      (({ State.reset with iReg := 0x050 } : State).drawn 1 2 5).fb).setReg 1 0x40).setReg 2 0x40, rfl, rfl, rfl, rfl, rfl, rfl,
    rfl⟩⟩

theorem witness_KeySkipsReadTheNamedKey : ((regs [(4, 0x0F)]).reg 4).toNat = (0xF : Nibble).toNat ∧
    0x10 ≤ ((regs [(4, 0x10)]).reg 4).toNat := by decide

theorem witness_FetchWordPlacesNextInstruction : State.reset.cfg.strictSecondary = false ∧
    State.reset.mem.wf State.reset.cfg = true ∧ decodeTableWord 16 0x63A5 = some (.ldImm 3 0xA5) ∧ fetchable State.reset ∧
    fetchable { State.reset with pc := 0xFFE } := by unfold fetchable; decide

end Sys2Proof.Tests
end

section
/-! SUPPORT. What an instruction does to the state, said once as one of a few updates (InstrEffect), and the frame of each
field read off it. -/

namespace Sys2Proof.Machine

/-! ### CALL and RET, each in its two cases (R60, R61) -/

/-- With room on the stack CALL pushes pc and jumps. -/
theorem exec_call_of_room {s : State} (nnn : Addr12) (room : s.stack.length ≠ s.cfg.stackCapacity) :
    exec (.call nnn) s = .next (({ s with stack := s.pc :: s.stack } : State).setPc (zextAddr nnn)) := by
  simp only [exec, execCall, State.push, if_neg room]

/-- At capacity CALL enters StackOverflow with the address not pushed. -/
theorem exec_call_of_full {s : State} (nnn : Addr12) (full : s.stack.length = s.cfg.stackCapacity) :
    exec (.call nnn) s = .next (s.execFault .stackOverflow (.call nnn) (some s.pc)) := by
  simp only [exec, execCall, State.push, if_pos full]

/-- RET pops the top into pc. -/
theorem exec_ret_of_cons {s : State} (x : Nibble) {a : Word} {rest : List Word} (top : s.stack = a :: rest) :
    exec (.ret x) s = .next (({ s with stack := rest } : State).setPc a) := by
  simp only [exec, execRet, State.pop, top]

/-- On an empty stack RET enters StackUnderflow. -/
theorem exec_ret_of_nil {s : State} (x : Nibble) (empty : s.stack = []) :
    exec (.ret x) s = .next (s.execFault .stackUnderflow (.ret x) none) := by
  simp only [exec, execRet, State.pop, empty]

/-! ### The updates of an instruction -/

/-- The updates an instruction can make: its fault entry, or an effect of its own. An update that any instruction may make as far
as the frame is concerned (registers of its own, a jump, an event) is stated for every instruction. -/
inductive InstrEffect (s : State) : Instr → State → Prop
  | fault (i : Instr) (c : Cause) (n : Option Word) : InstrEffect s i (s.execFault c i n)
  | registers (i : Instr) (v : Vector Byte 16)
      (own : ∀ r : Nibble, ¬ mayWriteReg i r → ({ s with v := v } : State).reg r = s.reg r) :
      InstrEffect s i { s with v := v }
  | jump (i : Instr) (a : Word) : InstrEffect s i (s.setPc a)
  | event (i : Instr) (a w : Word) : InstrEffect s i (s.emitUnknown a w)
  | cls (x : Nibble) : InstrEffect s (.cls x) (s.present Framebuffer.clear)
  | drw (x y n : Nibble) (f : Framebuffer) (b : Byte) : InstrEffect s (.drw x y n) ((s.present f).setReg vf b)
  | ret (x : Nibble) (a : Word) (rest : List Word) (top : s.stack = a :: rest) :
      InstrEffect s (.ret x) (({ s with stack := rest } : State).setPc a)
  | call (nnn : Addr12) (a : Word) (room : s.stack.length ≠ s.cfg.stackCapacity) :
      InstrEffect s (.call nnn) (({ s with stack := s.pc :: s.stack } : State).setPc a)
  | rnd (x : Nibble) (nn b : Byte) : InstrEffect s (.rnd x nn) { s.setReg x b with draws := s.draws + 1 }
  | ldI (nnn : Addr12) (a : Word) : InstrEffect s (.ldI nnn) (s.setI a)
  | addI (x : Nibble) (a : Word) : InstrEffect s (.addI x) (s.setI a)
  | ldF (x : Nibble) (a : Word) : InstrEffect s (.ldF x) (s.setI a)
  | ldB (x : Nibble) (bs : List Byte) (fits : s.iReg.toNat + bs.length ≤ memSize) :
      InstrEffect s (.ldB x) (s.writeBytes s.iReg.toNat bs)
  | ldMemVx (x : Nibble) (bs : List Byte) (fits : s.iReg.toNat + bs.length ≤ memSize) :
      InstrEffect s (.ldMemVx x) ((s.writeBytes s.iReg.toNat bs).setI (s.indexAfter x))
  | ldVxMem (x : Nibble) (v : Vector Byte 16)
      (own : ∀ r : Nibble, ¬ mayWriteReg (.ldVxMem x) r → ({ s with v := v } : State).reg r = s.reg r) :
      InstrEffect s (.ldVxMem x) (({ s with v := v } : State).setI (s.indexAfter x))
  | ldDtVx (x : Nibble) : InstrEffect s (.ldDtVx x) { s with dt := s.reg x }
  | ldStVx (x : Nibble) : InstrEffect s (.ldStVx x) { s with st := s.reg x }
  | ldVxK (x : Nibble) : InstrEffect s (.ldVxK x) { s with keyLatch := s.keysNow, engine := .awaitingKey x }

namespace InstrEffect

variable {s t : State} {i : Instr}

/-- A write of a register that is the instruction's own. -/
theorem setReg {x : Nibble} {b : Byte} (own : mayWriteReg i x) : InstrEffect s i (s.setReg x b) :=
  .registers i _ fun _ hr => State.reg_setReg_ne s b fun e => hr (e ▸ own)

/-- A result and its flag, in two registers that are the instruction's own (R177). -/
theorem setResultFlag {x : Nibble} {b : Byte} {f : Bool} (own : mayWriteReg i x) (ownVf : mayWriteReg i vf) :
    InstrEffect s i (s.setResultFlag x b f) := by
  refine .registers i _ fun r hr => (State.reg_setResultFlag s x r b f).trans ?_
  have hx : r ≠ x := fun e => hr (e ▸ own)
  have hvf : r ≠ vf := fun e => hr (e ▸ ownVf)
  rw [if_neg hvf, if_neg hx]

theorem skipIf (cond : Bool) : InstrEffect s i (s.skipIf cond) := by
  rcases s.skipIf_cases cond with ⟨-, e⟩ | ⟨-, e⟩
  · rw [e]; exact .jump i _
  · rw [e]; exact .jump i s.pc

/-- A checked access has its effect inside memory and its fault entry outside (R106). -/
theorem withAccess {n : Nat} (effect : n = 0 ∨ s.iReg.toNat + n ≤ memSize → InstrEffect s i t) :
    InstrEffect s i (s.withAccess i n t) := by
  rcases s.withAccess_cases i n t with ⟨inside, e⟩ | ⟨-, e⟩
  · rw [e]; exact effect ((inMemory_iff _ _).1 inside)
  · rw [e]; exact .fault i _ _

end InstrEffect

/-- A next state of exec is one of the instruction's updates: the inversion of exec, for all instructions. -/
theorem exec_effect {i : Instr} {s t : State} (h : exec i s = .next t) : InstrEffect s i t := by
  cases i with
  | cls x => cases h; exact .cls x
  | sys nnn => cases h; exact .event _ _ _
  | jp nnn | jpOff nnn => cases h; exact .jump _ _
  | ret x =>
    cases top : s.stack with
    | nil => rw [exec_ret_of_nil x top] at h; cases h; exact .fault _ _ _
    | cons a rest => rw [exec_ret_of_cons x top] at h; cases h; exact .ret x a rest top
  | call nnn =>
    by_cases full : s.stack.length = s.cfg.stackCapacity
    · rw [exec_call_of_full nnn full] at h; cases h; exact .fault _ _ _
    · rw [exec_call_of_room nnn full] at h; cases h; exact .call nnn _ full
  | seImm | sneImm | seReg | sneReg => cases h; exact .skipIf _
  | skp x =>
    rcases keyIndex_cases (s.reg x) with ⟨-, k, e, -⟩ | ⟨-, e⟩
    · simp only [exec, execSkp, e] at h; cases h; exact .skipIf _
    · simp only [exec, execSkp, e] at h; cases h; exact .fault _ _ _
  | sknp x =>
    rcases keyIndex_cases (s.reg x) with ⟨-, k, e, -⟩ | ⟨-, e⟩
    · simp only [exec, execSknp, e] at h; cases h; exact .skipIf _
    · simp only [exec, execSknp, e] at h; cases h; exact .fault _ _ _
  | ldImm | addImm | ldReg | ldVxDt => cases h; exact .setReg rfl
  | orReg | andReg | xorReg | addReg | sub | shr | subn | shl => cases h; exact .setResultFlag (.inl rfl) (.inr rfl)
  | rnd x nn => cases h; exact .rnd x nn _
  | ldI nnn => cases h; exact .ldI nnn _
  | addI x => cases h; exact .addI x _
  | ldF x => cases h; exact .ldF x _
  | ldB x => cases h; exact .withAccess fun fits => .ldB x _ (by simpa [bcdDigits] using fits)
  | ldMemVx x =>
    have hlen := s.length_firstRegs (x.toNat + 1) x.isLt
    cases h; exact .withAccess fun fits => .ldMemVx x _ (by simpa [hlen] using fits)
  | ldVxMem x =>
    cases h
    refine .withAccess fun _ => ?_
    rw [s.loadRegs_eq]
    refine .ldVxMem x _ fun r hr => ?_
    have hk : ¬ r.toNat ≤ x.toNat := hr
    have hx := x.isLt
    rw [← s.loadRegs_eq, s.reg_loadRegs _ _ (by simp; omega), if_neg (by simp; omega)]
  | drw x y n => cases h; exact .withAccess fun _ => .drw x y n _ _
  | ldDtVx x => cases h; exact .ldDtVx x
  | ldStVx x => cases h; exact .ldStVx x
  | ldVxK x => cases h; exact .ldVxK x

/-- In modern mode the two range accesses leave I (R265, R266). -/
theorem State.indexAfter_modern {s : State} (h : s.cfg.quirk = .modern) (x : Nibble) : s.indexAfter x = s.iReg := by
  unfold State.indexAfter; rw [h]

/-! ### What each field can come from -/

namespace InstrEffect

variable {s t : State} {i : Instr}

/-- A register is written only by an instruction whose own it is (R53). -/
theorem reg (h : InstrEffect s i t) {r : Nibble} (hr : ¬ mayWriteReg i r) : t.reg r = s.reg r := by
  cases h with
  | registers _ v own => exact own r hr
  | ldVxMem x v own => exact own r hr
  | drw x y n f b => exact State.reg_setReg_ne _ b hr
  | rnd x nn b => exact State.reg_setReg_ne s b hr
  | _ => rfl

/-- Memory is written only by LD_B and LD_MEM_VX (R404). -/
theorem mem (h : InstrEffect s i t) (hB : ∀ x, i ≠ .ldB x) (hM : ∀ x, i ≠ .ldMemVx x) : t.mem = s.mem := by
  cases h with
  | ldB x => exact absurd rfl (hB x)
  | ldMemVx x => exact absurd rfl (hM x)
  | _ => rfl

/-- The framebuffer is written only by CLS and DRW (R293). -/
theorem fb (h : InstrEffect s i t) (hd : draws i = false) : t.fb = s.fb := by
  cases h with
  | cls | drw => cases hd
  | _ => rfl

/-- The stack is written only by CALL and RET (R59). -/
theorem stack (h : InstrEffect s i t) (hR : ∀ x, i ≠ .ret x) (hC : ∀ nnn, i ≠ .call nnn) : t.stack = s.stack := by
  cases h with
  | ret x => exact absurd rfl (hR x)
  | call nnn => exact absurd rfl (hC nnn)
  | _ => rfl

/-- DT is written only by LD_DT_VX (R57). -/
theorem dt (h : InstrEffect s i t) (hD : ∀ x, i ≠ .ldDtVx x) : t.dt = s.dt := by
  cases h with
  | ldDtVx x => exact absurd rfl (hD x)
  | _ => rfl

/-- ST is written only by LD_ST_VX (R57). -/
theorem st (h : InstrEffect s i t) (hS : ∀ x, i ≠ .ldStVx x) : t.st = s.st := by
  cases h with
  | ldStVx x => exact absurd rfl (hS x)
  | _ => rfl

/-- The latch is written only by LD_VX_K (R71). -/
theorem keyLatch (h : InstrEffect s i t) (hK : ∀ x, i ≠ .ldVxK x) : t.keyLatch = s.keyLatch := by
  cases h with
  | ldVxK x => exact absurd rfl (hK x)
  | _ => rfl

/-- The counter of draws moves only with RND. -/
theorem draws (h : InstrEffect s i t) (hR : ∀ x nn, i ≠ .rnd x nn) : t.draws = s.draws := by
  cases h with
  | rnd x nn => exact absurd rfl (hR x nn)
  | _ => rfl

/-- I is written only by the five of R56, by two of them in legacy mode only. -/
theorem iReg (h : InstrEffect s i t) (hI : ∀ nnn, i ≠ .ldI nnn) (hA : ∀ x, i ≠ .addI x) (hF : ∀ x, i ≠ .ldF x)
    (hQ : s.cfg.quirk = .modern ∨ (∀ x, i ≠ .ldMemVx x) ∧ ∀ x, i ≠ .ldVxMem x) : t.iReg = s.iReg := by
  cases h with
  | ldI nnn => exact absurd rfl (hI nnn)
  | addI x => exact absurd rfl (hA x)
  | ldF x => exact absurd rfl (hF x)
  | ldMemVx x =>
    rcases hQ with modern | ⟨hM, -⟩
    · exact State.indexAfter_modern modern x
    · exact absurd rfl (hM x)
  | ldVxMem x =>
    rcases hQ with modern | ⟨-, hV⟩
    · exact State.indexAfter_modern modern x
    · exact absurd rfl (hV x)
  | _ => rfl

/-- Memory stays in its canonical form: a store lies inside memory. -/
theorem memWf (h : InstrEffect s i t) (hm : s.mem.wf s.cfg = true) : t.mem.wf t.cfg = true := by
  cases h with
  | ldB x bs fits => exact Memory.wf_writeList hm fits
  | ldMemVx x bs fits => exact Memory.wf_writeList hm fits
  | _ => exact hm

/-- The stack stays within capacity: CALL pushes only with room (R59, R60). -/
theorem stackBound (h : InstrEffect s i t) (hb : s.stack.length ≤ s.cfg.stackCapacity) :
    t.stack.length ≤ t.cfg.stackCapacity := by
  cases h with
  | call nnn a room => exact Nat.lt_of_le_of_ne hb room
  | ret x a rest top =>
    rw [top] at hb
    exact Nat.le_of_succ_le hb
  | _ => exact hb

end InstrEffect

end Sys2Proof.Machine
end

section
/-! The state family: the zeroed state and boot, key transitions, what an instruction writes, the timers, CALL and RET, and the
invariant of a run. -/

namespace Sys2Proof.Machine

/-! ### The state after boot (R76) -/

section
variable (c : Config) (inputs : List HostInput)

theorem State.booted_reg (r : Nibble) : (State.booted c inputs).reg r = 0#8 := by
  simp [State.reg, State.booted]

theorem State.booted_key (k : Fin 17) : (State.booted c inputs).key[k] = false := by
  simp [State.booted]

theorem State.booted_keyLatch (k : Fin 16) : (State.booted c inputs).keyLatch[k] = false := by
  simp [State.booted]

theorem State.booted_fb (x y : Nat) : (State.booted c inputs).fb.get x y = false := by
  simp [State.booted, Framebuffer.get]

/-- Before a ROM is loaded every byte is zero but for the font (R393, R394). -/
theorem State.booted_readByte (a : Nat) : (State.booted c inputs).readByte a =
    if c.fontBase ≤ a ∧ a < c.fontBase + 80 then fontData.getD (a - c.fontBase) 0#8 else 0#8 := rfl

/-- A boot with an admitted configuration meets the invariant before its ROM is loaded. -/
theorem State.booted_inv (h : c.wf = true) : (State.booted c inputs).Inv where
  cfgWf := h
  memWf := Memory.wf_nil c
  stackBound := Nat.zero_le _
  slackClear := State.booted_key c inputs 16
  recordAgrees := rfl
  accNonneg := ⟨le_refl _, le_refl _⟩
  clockSettled := fun _ _ => ⟨instrPeriod_pos h, timerPeriod_pos⟩

end

/-- A boot with an admitted capacity and a ROM that fits answers the zeroed state with the ROM written at 0x200 (R390, R395). -/
theorem boot_of_fits {c : Config} {rom : RomInput} (inputs : List HostInput) (h1 : 1 ≤ c.stackCapacity)
    (h16 : c.stackCapacity ≤ 16) (hrom : rom.contents.length ≤ 3584) :
    boot c rom inputs = .next ((State.booted c inputs).writeBytes romBase rom.contents) := by
  have hcap : ¬ (c.stackCapacity = 0 ∨ stackCeiling < c.stackCapacity) := by unfold stackCeiling; omega
  have hfit : ¬ romMax < rom.contents.length := by unfold romMax; omega
  rw [boot, if_neg hcap, if_neg hfit]

/-- Settles O6: the fields are those of the zeroed state, and the bytes those of a write within memory over the font. -/
theorem bootBuildsTheMachine : Obligations.BootBuildsTheMachine := by
  intro c rom inputs h1 h16 _ hrom
  have hwf : (State.booted c inputs).mem.wf (State.booted c inputs).cfg = true := Memory.wf_nil c
  have hlen : romBase + rom.contents.length ≤ memSize := by unfold romBase memSize; omega
  refine ⟨_, boot_of_fits inputs h1 h16 hrom, rfl, State.booted_reg c inputs, rfl, rfl, rfl, rfl, rfl,
    State.booted_key c inputs, State.booted_fb c inputs, rfl, State.booted_keyLatch c inputs, rfl, rfl, rfl, rfl,
    fun a _ => ?_, Memory.wf_writeList hwf hlen⟩
  rw [State.readByte_writeBytes hwf hlen, State.booted_readByte]
  rfl

/-- Settles O5: reset is the boot of the default configuration with no ROM bytes, so it is the zeroed state. -/
theorem resetHoldsBootValues : Obligations.ResetHoldsBootValues :=
  ⟨boot_of_fits [] (by decide) (by decide) (by decide), State.booted_reg _ _, rfl, rfl, rfl, rfl, rfl,
    State.booted_key _ _, State.booted_fb _ _, rfl, State.booted_keyLatch _ _, rfl, rfl, rfl, rfl, rfl, rfl, rfl,
    State.booted_readByte _ _⟩

/-- The glyph of digit `d` at reset is its five bytes of the font (R66). -/
theorem reset_readBytes_glyph (d : Fin 16) :
    State.reset.readBytes (0x050 + 5 * d) 5 = (fontData.drop (5 * d)).take 5 := by
  revert d; decide

/-- Settles O8: each glyph read is its slice of the font table. -/
theorem fontGlyphsAtReset : Obligations.FontGlyphsAtReset :=
  ⟨reset_readBytes_glyph 0, reset_readBytes_glyph 1, reset_readBytes_glyph 2, reset_readBytes_glyph 3,
    reset_readBytes_glyph 4, reset_readBytes_glyph 5, reset_readBytes_glyph 6, reset_readBytes_glyph 7,
    reset_readBytes_glyph 8, reset_readBytes_glyph 9, reset_readBytes_glyph 10, reset_readBytes_glyph 11,
    reset_readBytes_glyph 12, reset_readBytes_glyph 13, reset_readBytes_glyph 14, reset_readBytes_glyph 15⟩

/-- Settles O27: reset is a boot with the default configuration, which is an admitted one. -/
theorem resetSatisfiesInvariant : Obligations.ResetSatisfiesInvariant :=
  State.booted_inv bootConfig [] (by decide)

/-! ### Key transitions (R63, R81, R363) -/

/-- A slot that no transition names, the slack slot among them, keeps its value. -/
theorem applyKeys_of_unnamed (key : Vector Bool 17) (ts : List (Nibble × Bool)) {j : Nat} (hj : j < 17)
    (h : ∀ p ∈ ts, p.1.toNat ≠ j) : (applyKeys key ts)[j] = key[j] := by
  induction ts generalizing key with
  | nil => rfl
  | cons p rest ih =>
    obtain ⟨hp, hrest⟩ := List.forall_mem_cons.1 h
    rw [applyKeys, ih _ hrest, Vector.getElem_set_ne _ _ hp]

/-- The slack slot is out of the host's reach: a key is named by four bits (R63). -/
theorem applyKeys_slack (key : Vector Bool 17) (ts : List (Nibble × Bool)) : (applyKeys key ts)[16] = key[16] :=
  applyKeys_of_unnamed key ts _ fun p _ => Nat.ne_of_lt p.1.isLt

/-- Settles O23: the transitions before the last of a key are overwritten by it, and those after it name other keys. -/
theorem keyTransitionsReachSixteenKeys : Obligations.KeyTransitionsReachSixteenKeys := by
  intro key
  have unnamed : ∀ {ts : List (Nibble × Bool)} {k : Nibble}, (∀ p ∈ ts, p.1 ≠ k) → ∀ p ∈ ts, p.1.toNat ≠ k.toNat :=
    fun h p hp e => h p hp (BitVec.eq_of_toNat_eq e)
  refine ⟨applyKeys_slack key, fun ts k h => applyKeys_of_unnamed key ts _ (unnamed h), fun before after k down h => ?_⟩
  simp only [applyKeys_append, applyKeys]
  rw [applyKeys_of_unnamed _ after _ (unnamed h), Vector.getElem_set_self]

/-! ### What an instruction writes -/

/-- Settles O32: each clause is the frame of one field, and the surroundings are kept by every instruction. -/
theorem instructionsWriteOnlyTheirOwn : Obligations.InstructionsWriteOnlyTheirOwn := by
  intro i s t h
  have e := exec_effect h
  have k := exec_keeps h
  exact ⟨fun _ => e.reg, fun hB hM => State.readByte_congr (e.mem hB hM) k.cfg, e.fb, e.stack, e.dt, e.st, e.iReg,
    e.keyLatch, e.draws, k.key, k.cfg, k.accI, k.accT, k.running, k.inputs, k.phase⟩

/-! ### The timers (R57, R350) -/

/-- An instruction that moves a timer is one of the two that set it. -/
theorem InstrEffect.sets_timer {s t : State} {i : Instr} (h : InstrEffect s i t) (moved : t.dt ≠ s.dt ∨ t.st ≠ s.st) :
    ∃ x, i = .ldDtVx x ∨ i = .ldStVx x := by
  by_contra hno
  push Not at hno
  rcases moved with hdt | hst
  · exact hdt (h.dt fun x => (hno x).1)
  · exact hst (h.st fun x => (hno x).2)

/-- A tick in AWAITING_KEY: the latch takes the keypad, and a qualifying key goes to V[x] and ends the wait (R317, R318). -/
theorem State.keyWaitTick_cases (s : State) (x : Nibble) :
    (∃ k, s.lowestKey = some k ∧
      s.keyWaitTick x = { s.setReg x (k.setWidth 8) with keyLatch := s.keysNow, engine := .running }) ∨
    (s.lowestKey = none ∧ s.keyWaitTick x = { s with keyLatch := s.keysNow }) := by
  unfold State.keyWaitTick
  cases s.lowestKey with
  | some k => exact .inl ⟨k, rfl, rfl⟩
  | none => exact .inr ⟨rfl, rfl⟩

/-- An instruction tick that moves a timer dispatches one of the two instructions that set it. -/
theorem tickComes_sets_timer {s t : State} (h : tickComes s) (hs : step s = .next t) (moved : t.dt ≠ s.dt ∨ t.st ≠ s.st) :
    s.engine = .running ∧
      ∃ w x, isWordAtPc w s ∧ (decodeWord w = .ok (.ldDtVx x) ∨ decodeWord w = .ok (.ldStVx x)) := by
  rcases tickComes_cases h hs with ⟨x, -, rfl⟩ | ⟨c, -, -, rfl⟩ | ⟨running, -, hd⟩
  · rcases s.spendInstr.clearOutputs.keyWaitTick_cases x with ⟨k, -, e⟩ | ⟨-, e⟩ <;> simp [e] at moved
  · simp at moved
  · rcases (beforeDispatch s).dispatch_cases (s.fetchWord s.pc.toNat) with ⟨-, -, e⟩ | ⟨-, ⟨i, hw, e⟩ | ⟨r, -, e⟩⟩
    · rw [e] at hd; cases hd; simp [beforeDispatch] at moved
    · rw [e] at hd
      obtain ⟨x, hx⟩ := (exec_effect hd).sets_timer moved
      refine ⟨running, _, x, (isWordAtPc_iff _ s).2 rfl, ?_⟩
      rw [hw]
      simpa using hx
    · rw [e] at hd; cases hd; simp [beforeDispatch] at moved

/-- Settles O33: of the five events of a step only the two ticks can move a timer. -/
theorem timersMoveOnlyByTickOrSet : Obligations.TimersMoveOnlyByTickOrSet := by
  intro s t h moved
  rcases step_cases h with ⟨-, rfl⟩ | ⟨-, rfl⟩ | ⟨-, -, rfl⟩ | ⟨inside, notHalted, due, -⟩ | ⟨-, notHalted, -, due, rfl⟩
  · simp at moved
  · obtain ⟨-, -, -, -, -, hdt, hst, -⟩ := s.startIteration_keeps
    simp [hdt, hst] at moved
  · simp [State.endIteration] at moved
  · exact .inr (tickComes_sets_timer ⟨inside, of_decide_eq_true due, notHalted⟩ h moved)
  · refine .inl ⟨notHalted, ?_, ?_, rfl⟩
    · rw [← timerPeriod_eq]; exact of_decide_eq_true due
    · rw [← timerPeriod_eq]; rfl

/-! ### CALL and RET (R60, R61) -/

theorem decodeWord_call (nnn : Addr12) : decodeWord (0x2#4 ++ nnn) = .ok (.call nnn) := by
  rw [decodeWord_type2 (fieldType_nnn _ _), fieldNNN_nnn]

theorem decodeWord_ret (x : Nibble) : decodeWord (0x0#4 ++ x ++ 0xEE#8) = .ok (.ret x) := by
  rw [decodeWord_type0 (fieldType_xnn _ _ _), decodeType0, fieldNN_xnn, fieldX_xnn]
  rfl

/-- Settles O43: the two cases of CALL, with the target zero-extended from twelve bits. -/
theorem callPushesReturnAddress : Obligations.CallPushesReturnAddress := by
  intro nnn s
  have target : (zextAddr nnn).toNat = nnn.toNat := BitVec.toNat_setWidth_of_le (by decide)
  exact ⟨decodeWord_call nnn, fun room => ⟨_, exec_call_of_room nnn room, rfl, target, rfl⟩, exec_call_of_full nnn⟩

/-- Settles O44: the two cases of RET. -/
theorem retPopsReturnAddress : Obligations.RetPopsReturnAddress :=
  fun x _ => ⟨decodeWord_ret x, fun _ _ top => ⟨_, exec_ret_of_cons x top, rfl, rfl, rfl⟩, exec_ret_of_nil x⟩

/-! ### The invariant of a run -/

/-- An empty fault record agrees with an engine that is not halted (R74). -/
theorem State.recordAgrees_of_none {s : State} (hr : s.faultRec = none)
    (he : s.engine = .running ∨ ∃ x, s.engine = .awaitingKey x) : s.recordAgrees := by
  unfold State.recordAgrees
  rcases he with e | ⟨x, e⟩
  · rw [e]; exact hr
  · rw [e]; exact hr

/-- In RUNNING and in AWAITING_KEY the record is empty (R74). -/
theorem State.recordAgrees.faultRec_none {s : State} (h : s.recordAgrees)
    (he : s.engine = .running ∨ ∃ x, s.engine = .awaitingKey x) : s.faultRec = none := by
  unfold State.recordAgrees at h
  rcases he with e | ⟨x, e⟩
  · rw [e] at h; exact h
  · rw [e] at h; exact h

/-- A fault fills the record with the cause of the halt (R342). -/
theorem State.recordAgrees_raise (s : State) (c : Cause) (a : Word) (w n : Option Word) :
    (s.raise c a w n).recordAgrees := ⟨_, rfl, rfl⟩

/-- An instruction keeps the agreement of the record with the engine state (R74, R342). -/
theorem exec_recordAgrees {i : Instr} {s t : State} (h : exec i s = .next t) (running : s.engine = .running)
    (hr : s.faultRec = none) : t.recordAgrees := by
  rcases exec_cases h with ⟨c, n, rfl, -⟩ | ⟨he, hrec, -⟩
  · exact s.recordAgrees_raise _ _ _ _
  · exact State.recordAgrees_of_none (hrec.trans hr) (he.imp_left (·.trans running))

namespace State.Inv

variable {s t : State}

/-- Inside an iteration the invariant passes to a state with the same surroundings, once its memory, its stack and its fault
record are as the invariant asks. -/
theorem of_surroundings (hs : s.Inv) (inside : s.phase = .inside) (k : SameSurroundings s t)
    (memWf : t.mem.wf t.cfg = true) (stackBound : t.stack.length ≤ t.cfg.stackCapacity) (recordAgrees : t.recordAgrees) :
    t.Inv where
  cfgWf := by rw [k.cfg]; exact hs.cfgWf
  memWf := memWf
  stackBound := stackBound
  slackClear := by rw [k.key]; exact hs.slackClear
  recordAgrees := recordAgrees
  accNonneg := by rw [k.accI, k.accT]; exact hs.accNonneg
  clockSettled := fun between => by rw [k.phase, inside] at between; cases between

/-- A period that is due is spent without making acc_i negative (R354). -/
theorem spendInstr (hs : s.Inv) (inside : s.phase = .inside) (due : s.instrDue = true) : s.spendInstr.Inv :=
  { hs with
    accNonneg := ⟨sub_nonneg.2 (of_decide_eq_true due), hs.accNonneg.2⟩
    clockSettled := fun between => by cases inside.symm.trans between }

/-- A timer tick that is due keeps the invariant (R355). -/
theorem timerTick (hs : s.Inv) (inside : s.phase = .inside) (due : s.timerDue = true) : s.spendTimer.timerTick.Inv :=
  { hs with
    accNonneg := ⟨hs.accNonneg.1, sub_nonneg.2 (of_decide_eq_true due)⟩
    clockSettled := fun between => by cases inside.symm.trans between }

/-- An instruction keeps the invariant. -/
theorem of_exec {i : Instr} (hs : s.Inv) (inside : s.phase = .inside) (running : s.engine = .running)
    (h : exec i s = .next t) : t.Inv :=
  have e := exec_effect h
  hs.of_surroundings inside (exec_keeps h) (e.memWf hs.memWf) (e.stackBound hs.stackBound)
    (exec_recordAgrees h running (hs.recordAgrees.faultRec_none (.inl running)))

/-- An instruction tick keeps the invariant, whatever the engine state. -/
theorem instructionTick (hs : s.Inv) (inside : s.phase = .inside) (h : s.instructionTick = .next t) : t.Inv := by
  have k := State.instructionTick_keeps h
  rcases State.instructionTick_cases h with ⟨c, -, rfl⟩ | ⟨x, waits, rfl⟩ | ⟨c, -, -, rfl⟩ | ⟨running, -, hd⟩
  · exact hs.of_surroundings inside k hs.memWf hs.stackBound hs.recordAgrees
  · have noRecord : s.faultRec = none := hs.recordAgrees.faultRec_none (.inr ⟨x, waits⟩)
    rcases s.clearOutputs.keyWaitTick_cases x with ⟨j, -, e⟩ | ⟨-, e⟩
    · rw [e] at k ⊢
      exact hs.of_surroundings inside k hs.memWf hs.stackBound (State.recordAgrees_of_none noRecord (.inl rfl))
    · rw [e] at k ⊢
      exact hs.of_surroundings inside k hs.memWf hs.stackBound hs.recordAgrees
  · exact hs.of_surroundings inside k hs.memWf hs.stackBound (State.recordAgrees_raise _ _ _ _ _)
  · rcases s.clearOutputs.advancePc.dispatch_cases (s.fetchWord s.pc.toNat) with ⟨-, -, e⟩ | ⟨-, ⟨i, -, e⟩ | ⟨r, -, e⟩⟩
    · rw [e] at hd; cases hd
      exact hs.of_surroundings inside k hs.memWf hs.stackBound (State.recordAgrees_raise _ _ _ _ _)
    · rw [e] at hd
      have hs' : s.clearOutputs.advancePc.Inv := { hs with }
      exact hs'.of_exec inside running hd
    · rw [e] at hd; cases hd
      exact hs.of_surroundings inside k hs.memWf hs.stackBound hs.recordAgrees

/-- The start of an iteration keeps the invariant: the slack slot is out of the host's reach and a delta is not negative. -/
theorem startIteration (hs : s.Inv) : s.startIteration.Inv := by
  have slack : s.takeInput.key[16] = false := (applyKeys_slack s.key _).trans hs.slackClear
  have delta := delta_nonneg s.nextInput
  unfold State.startIteration
  split
  · exact
    { hs with
      slackClear := slack
      accNonneg := ⟨add_nonneg hs.accNonneg.1 delta, add_nonneg hs.accNonneg.2 delta⟩
      clockSettled := fun between => by cases between }
  · exact { hs with slackClear := slack, clockSettled := fun between => by cases between }

/-- The end of an iteration keeps the invariant: it comes once nothing is due or the engine is HALTED (R356, R357). -/
theorem endIteration (hs : s.Inv) (h : s.isHalted = true ∨ s.instrDue = false ∧ s.timerDue = false) :
    s.endIteration.Inv := by
  refine { hs with clockSettled := fun _ notHalted => ?_ }
  rcases h with halted | ⟨noInstr, noTimer⟩
  · exact absurd halted (by rw [show s.isHalted = false from notHalted]; decide)
  · exact ⟨not_le.1 (of_decide_eq_false noInstr), not_le.1 (of_decide_eq_false noTimer)⟩

end State.Inv

/-- Settles O28: each of the five events of a step keeps the invariant. -/
theorem stepKeepsInvariant : Obligations.StepKeepsInvariant := by
  intro s t hs h
  rcases step_cases h with ⟨-, rfl⟩ | ⟨-, rfl⟩ | ⟨-, settled, rfl⟩ | ⟨inside, -, due, tick⟩ | ⟨inside, -, -, due, rfl⟩
  · exact hs
  · exact hs.startIteration
  · exact hs.endIteration settled
  · exact (hs.spendInstr inside due).instructionTick inside tick
  · exact hs.timerTick inside due

end Sys2Proof.Machine
end

section
/-! The memory family: a byte read after a write, the registers that FX55 stores, and what a step inside an iteration leaves to
the host. -/

namespace Sys2Proof.Machine

/-! ### The host's inputs (R116, R361) -/

/-- Settles O30: of the five events of a step only the start of an iteration takes a host input, and a tick keeps what is
around it. -/
theorem hostInputsLandBetweenIterations : Obligations.HostInputsLandBetweenIterations := by
  intro s t h notBetween
  rcases step_cases h with ⟨-, rfl⟩ | ⟨between, -⟩ | ⟨-, -, rfl⟩ | ⟨-, -, -, tick⟩ | ⟨-, -, -, -, rfl⟩
  · exact ⟨rfl, rfl, rfl⟩
  · exact absurd between notBetween
  · exact ⟨rfl, rfl, rfl⟩
  · have k := State.instructionTick_keeps tick
    exact ⟨k.key, k.running, k.inputs⟩
  · exact ⟨rfl, rfl, rfl⟩

/-! ### One byte written (R105, R111) -/

/-- A read after a write of one byte: that byte at its address, the old byte anywhere else. -/
theorem State.readByte_writeBytes_singleton {s : State} (h : s.mem.wf s.cfg = true) (a a' : Nat) (b : Byte) :
    (s.writeBytes a [b]).readByte a' = if a' = a then b else s.readByte a' :=
  Memory.read_write h a a' b

/-- Settles O34: a write of one byte is read back at its address only, and lies inside memory. -/
theorem memoryReadsLastWrite : Obligations.MemoryReadsLastWrite := by
  intro s a b hwf ha
  refine ⟨?_, fun a' other => ?_, Memory.wf_writeList hwf ha⟩
  · rw [State.readByte_writeBytes_singleton hwf, if_pos rfl]
  · rw [State.readByte_writeBytes_singleton hwf, if_neg other]

/-! ### Registers stored over the next instruction (R114, R404) -/

/-- When its range lies inside memory FX55 stores V0..V[x] at I and moves I by the quirk mode (R265). -/
theorem exec_ldMemVx_of_inside {s : State} {x : Nibble} (inside : s.iReg.toNat + x.toNat < memSize) :
    exec (.ldMemVx x) s =
      .next ((s.writeBytes s.iReg.toNat (s.firstRegs (x.toNat + 1))).setI (s.indexAfter x)) :=
  congrArg Host.Outcome.next (State.withAccess_inside _ _ (.inr inside))

/-- The first `n` registers stored from `a` on, inside memory: the byte at a + k is V[k]. -/
theorem State.readByte_writeBytes_firstRegs {s : State} (hwf : s.mem.wf s.cfg = true) {a n : Nat} (hn : n ≤ 16)
    (ha : a + n ≤ memSize) (k : Nibble) (hk : k.toNat < n) :
    (s.writeBytes a (s.firstRegs n)).readByte (a + k.toNat) = s.reg k := by
  have hlen := s.length_firstRegs n hn
  have covered : a ≤ a + k.toNat ∧ a + k.toNat < a + (s.firstRegs n).length := by omega
  rw [State.readByte_writeBytes hwf (by omega), if_pos covered, Nat.add_sub_cancel_left,
    List.getD_eq_getElem _ _ (by omega), State.getElem_firstRegs]

/-- Settles O35: FX55 keeps pc, and the bytes at pc = I and at pc + 1 are then V0 and V1. -/
theorem storedWordIsFetchedNext : Obligations.StoredWordIsFetchedNext := by
  intro s x hx hwf hI inside
  have stored := State.readByte_writeBytes_firstRegs hwf (a := s.iReg.toNat) (n := x.toNat + 1) x.isLt inside
  refine ⟨_, exec_ldMemVx_of_inside inside, rfl, (isWordAtPc_iff _ _).2 ?_⟩
  calc s.reg 0#4 ++ s.reg 1#4
      = (s.writeBytes s.iReg.toNat (s.firstRegs (x.toNat + 1))).fetchWord s.iReg.toNat :=
        congrArg₂ wordOfBytes (stored 0#4 (Nat.succ_pos _)).symm (stored 1#4 (Nat.succ_lt_succ hx)).symm
    _ = _ := by rw [hI]; rfl

end Sys2Proof.Machine
end

section
/-! The encoding family: decoding an encoded instruction, encoding a decoded word, and the undefined and the ambiguous words by
their numbers. -/

namespace Sys2Proof

/-! ### An encoded instruction decodes to itself (R138) -/

/-- Each pattern of the opcode map has the type, and the n or nn, that the decoder dispatches on. SYS alone needs its low byte
kept from that of CLS and RET (R140). -/
theorem decodeWord_encode {i : Instr} (h : wellFormed i = true) : decodeWord (encode i) = .ok i := by
  cases i with
  | sys nnn =>
    obtain ⟨notCls, notRet⟩ : lowByte nnn ≠ 0xE0#8 ∧ lowByte nnn ≠ 0xEE#8 := by simpa [wellFormed] using h
    rw [encode, decodeWord_type0 (fieldType_nnn _ _), decodeType0, fieldNN_nnn, if_neg notCls, if_neg notRet, fieldNNN_nnn]
  | jp | call | ldI | jpOff =>
    simp only [encode, decodeWord_type1, decodeWord_type2, decodeWord_typeA, decodeWord_typeB, fieldType_nnn, fieldNNN_nnn]
  | seImm | sneImm | ldImm | addImm | rnd =>
    simp only [encode, decodeWord_type3, decodeWord_type4, decodeWord_type6, decodeWord_type7, decodeWord_typeC, fieldType_xnn,
      fieldX_xnn, fieldNN_xnn]
  | seReg | sneReg | drw =>
    simp only [encode, decodeWord_type5, decodeWord_type9, decodeWord_typeD, fieldType_xyn, fieldX_xyn, fieldY_xyn, fieldN_xyn]
  | ldReg | orReg | andReg | xorReg | addReg | sub | shr | subn | shl =>
    rw [encode, decodeWord_type8 (fieldType_xyn _ _ _ _)]
    simp only [decodeType8, fieldX_xyn, fieldY_xyn, fieldN_xyn, BitVec.toNat_ofNat]
  | cls | ret =>
    rw [encode, decodeWord_type0 (fieldType_xnn _ _ _), decodeType0, fieldNN_xnn, fieldX_xnn]; rfl
  | skp | sknp =>
    rw [encode, decodeWord_typeE (fieldType_xnn _ _ _), decodeTypeE, fieldNN_xnn, fieldX_xnn]; rfl
  | ldVxDt | ldVxK | ldDtVx | ldStVx | addI | ldF | ldB | ldMemVx | ldVxMem =>
    rw [encode, decodeWord_typeF (fieldType_xnn _ _ _), decodeTypeF, fieldNN_xnn, fieldX_xnn]; rfl

/-- The bytes of an instruction are read back as its word, and the bytes after them are left. -/
theorem decode_encodeBytes_append (i : Instr) (rest : List Byte) :
    decode (encodeBytes i ++ rest) = (decodeWord (encode i)).map fun j => (j, rest) := by
  simp only [encodeBytes, List.cons_append, List.nil_append, decode, wordOfBytes_bytesOf]
  cases decodeWord (encode i) <;> rfl

/-- Settles O2: the word decodes to the instruction, and the first two bytes are that word. -/
theorem decodeOfEncodeIsIdentity : Obligations.DecodeOfEncodeIsIdentity := by
  intro i rest h
  refine ⟨decodeWord_encode h, ?_⟩
  rw [decode_encodeBytes_append, decodeWord_encode h]; rfl

/-! ### A word is the encoding of what it decodes to -/

section
variable {w : Word} {t n : Nibble} {nn : Byte} {i : Instr}

theorem append_nnn_of_fieldType (ht : fieldType w = t) : t ++ fieldNNN w = w :=
  ht ▸ word_of_type_nnn w

theorem append_x_nn_of_fieldType (ht : fieldType w = t) : t ++ fieldX w ++ fieldNN w = w :=
  ht ▸ word_of_type_x_nn w

theorem append_x_of_fieldNN (ht : fieldType w = t) (hnn : fieldNN w = nn) : t ++ fieldX w ++ nn = w :=
  hnn ▸ append_x_nn_of_fieldType ht

theorem append_x_y_n_of_fieldType (ht : fieldType w = t) : t ++ fieldX w ++ fieldY w ++ fieldN w = w :=
  ht ▸ word_of_type_x_y_n w

theorem append_x_y_of_fieldN (ht : fieldType w = t) (hn : (fieldN w).toNat = n.toNat) : t ++ fieldX w ++ fieldY w ++ n = w :=
  BitVec.eq_of_toNat_eq hn ▸ append_x_y_n_of_fieldType ht

theorem encode_of_decodeType0 (ht : fieldType w = 0x0#4) (h : decodeType0 w = .ok i) : encode i = w ∧ wellFormed i = true := by
  unfold decodeType0 at h
  split_ifs at h with hCls hRet <;> cases h
  · exact ⟨append_x_of_fieldNN ht hCls, rfl⟩
  · exact ⟨append_x_of_fieldNN ht hRet, rfl⟩
  · refine ⟨append_nnn_of_fieldType ht, ?_⟩
    simp only [wellFormed, lowByte_fieldNNN, ne_eq, hCls, hRet, not_false_eq_true, decide_true, Bool.and_self]

theorem encode_of_decodeType8 (ht : fieldType w = 0x8#4) (h : decodeType8 w = .ok i) : encode i = w ∧ wellFormed i = true := by
  unfold decodeType8 at h
  split at h <;> cases h <;> exact ⟨append_x_y_of_fieldN ht ‹_›, rfl⟩

theorem encode_of_decodeTypeE (ht : fieldType w = 0xE#4) (h : decodeTypeE w = .ok i) : encode i = w ∧ wellFormed i = true := by
  unfold decodeTypeE at h
  split_ifs at h <;> cases h <;> exact ⟨append_x_of_fieldNN ht ‹_›, rfl⟩

theorem encode_of_decodeTypeF (ht : fieldType w = 0xF#4) (h : decodeTypeF w = .ok i) : encode i = w ∧ wellFormed i = true := by
  unfold decodeTypeF at h
  split_ifs at h <;> cases h <;> exact ⟨append_x_of_fieldNN ht ‹_›, rfl⟩

end

/-- Settles O3: in each of the sixteen types the fields of the instruction, put together again, are the word. -/
theorem encodeOfDecodeIsIdentity : Obligations.EncodeOfDecodeIsIdentity := by
  intro w i h
  rcases nibble_cases (fieldType w) with
    ht | ht | ht | ht | ht | ht | ht | ht | ht | ht | ht | ht | ht | ht | ht | ht
  · exact encode_of_decodeType0 ht (decodeWord_type0 ht ▸ h)
  · cases (decodeWord_type1 ht).symm.trans h; exact ⟨append_nnn_of_fieldType ht, rfl⟩
  · cases (decodeWord_type2 ht).symm.trans h; exact ⟨append_nnn_of_fieldType ht, rfl⟩
  · cases (decodeWord_type3 ht).symm.trans h; exact ⟨append_x_nn_of_fieldType ht, rfl⟩
  · cases (decodeWord_type4 ht).symm.trans h; exact ⟨append_x_nn_of_fieldType ht, rfl⟩
  · cases (decodeWord_type5 ht).symm.trans h; exact ⟨append_x_y_n_of_fieldType ht, rfl⟩
  · cases (decodeWord_type6 ht).symm.trans h; exact ⟨append_x_nn_of_fieldType ht, rfl⟩
  · cases (decodeWord_type7 ht).symm.trans h; exact ⟨append_x_nn_of_fieldType ht, rfl⟩
  · exact encode_of_decodeType8 ht (decodeWord_type8 ht ▸ h)
  · cases (decodeWord_type9 ht).symm.trans h; exact ⟨append_x_y_n_of_fieldType ht, rfl⟩
  · cases (decodeWord_typeA ht).symm.trans h; exact ⟨append_nnn_of_fieldType ht, rfl⟩
  · cases (decodeWord_typeB ht).symm.trans h; exact ⟨append_nnn_of_fieldType ht, rfl⟩
  · cases (decodeWord_typeC ht).symm.trans h; exact ⟨append_x_nn_of_fieldType ht, rfl⟩
  · cases (decodeWord_typeD ht).symm.trans h; exact ⟨append_x_y_n_of_fieldType ht, rfl⟩
  · exact encode_of_decodeTypeE ht (decodeWord_typeE ht ▸ h)
  · exact encode_of_decodeTypeF ht (decodeWord_typeF ht ▸ h)

/-! ### A field's value as an equation of numbers (R132) -/

section
variable (w : Word)

theorem fieldType_eq_iff (t : Nibble) : fieldType w = t ↔ w.toNat / 4096 = t.toNat := by
  rw [← BitVec.toNat_inj, toNat_fieldType]

theorem fieldNN_eq_iff (nn : Byte) : fieldNN w = nn ↔ w.toNat % 256 = nn.toNat := by
  rw [← BitVec.toNat_inj, toNat_fieldNN]

/-! ### The undefined words (R139) -/

/-- A dispatch on a condition is rejected only past it, when the condition gives an instruction. -/
theorem ite_ok_eq_error_iff {c : Prop} [Decidable c] {i : Instr} {e : Except Reject Instr} {r : Reject} :
    (if c then .ok i else e) = .error r ↔ ¬ c ∧ e = .error r := by
  split_ifs with hc <;> simp [hc]

theorem decodeType0_ne_error (r : Reject) : decodeType0 w ≠ .error r := by
  simp [decodeType0, ite_ok_eq_error_iff]

/-- Type 0x8 has no instruction at these n. -/
theorem decodeType8_error_iff :
    (∃ r, decodeType8 w = .error r) ↔ w.toNat % 16 ∈ [0x8, 0x9, 0xA, 0xB, 0xC, 0xD, 0xF] := by
  have hlt : w.toNat % 16 < 16 := Nat.mod_lt _ (by decide)
  rw [decodeType8, toNat_fieldN]
  generalize w.toNat % 16 = n at hlt ⊢
  interval_cases n <;> simp

/-- Type 0xE has an instruction at two nn only. -/
theorem decodeTypeE_error_iff : (∃ r, decodeTypeE w = .error r) ↔ w.toNat % 256 ∉ [0x9E, 0xA1] := by
  simp [decodeTypeE, ite_ok_eq_error_iff, fieldNN_eq_iff]

/-- Type 0xF has an instruction at nine nn only. -/
theorem decodeTypeF_error_iff : (∃ r, decodeTypeF w = .error r) ↔
    w.toNat % 256 ∉ [0x07, 0x0A, 0x15, 0x18, 0x1E, 0x29, 0x33, 0x55, 0x65] := by
  simp [decodeTypeF, ite_ok_eq_error_iff, fieldNN_eq_iff]

/-- Only three of the sixteen types have undefined words. -/
theorem decodeWord_error_iff (r : Reject) : decodeWord w = .error r ↔
    (fieldType w = 0x8#4 ∧ decodeType8 w = .error r) ∨ (fieldType w = 0xE#4 ∧ decodeTypeE w = .error r) ∨
      (fieldType w = 0xF#4 ∧ decodeTypeF w = .error r) := by
  rcases nibble_cases (fieldType w) with
    ht | ht | ht | ht | ht | ht | ht | ht | ht | ht | ht | ht | ht | ht | ht | ht <;>
    simp [decodeWord, ht, decodeType0_ne_error]

end

/-- Settles O4: an undefined word is one of the types 0x8, 0xE and 0xF whose n or nn has no instruction. -/
theorem undefinedWordsAreThoseListed : Obligations.UndefinedWordsAreThoseListed := by
  intro w
  simp only [decodeWord_error_iff, exists_or, exists_and_left, decodeType8_error_iff, decodeTypeE_error_iff,
    decodeTypeF_error_iff, fieldType_eq_iff, BitVec.toNat_ofNat]

/-- Settles O13: each field that isAmbiguous compares is its number. -/
theorem ambiguousWordsAreThoseListed : Obligations.AmbiguousWordsAreThoseListed := by
  intro w
  simp only [isAmbiguous, Bool.or_eq_true, Bool.and_eq_true, decide_eq_true_eq, ne_eq, ← BitVec.toNat_inj, toNat_fieldType,
    toNat_fieldN, toNat_fieldY, BitVec.toNat_ofNat, Nat.reducePow, Nat.reduceMod, ← and_or_left, and_assoc]

/-- Settles O1: the decoder evaluated on each of the closed words. -/
theorem specWordsDecode : Obligations.SpecWordsDecode := by
  unfold Obligations.SpecWordsDecode
  decide

end Sys2Proof
end


section
/-! The execution cycle family: the dispatch of a fetched word, what a tick comes to, its faults, the quirk mode, and the word
that withFetchWord places. -/

namespace Sys2Proof.Machine

/-! ### Dispatch, each case apart (R172, R178, R185) -/

/-- A word that is not ambiguous under STRICT_SECONDARY_DECODE runs the instruction it decodes to. -/
theorem State.dispatch_of_ok {s : State} {w : Word} {i : Instr} (hw : decodeWord w = .ok i)
    (lenient : s.cfg.strictSecondary = false ∨ isAmbiguous w = false) : s.dispatch w = exec i s := by
  rw [State.dispatch, if_neg (by rcases lenient with h | h <;> simp [h]), hw]

/-- An undefined word is logged (R178). -/
theorem State.dispatch_of_error {s : State} {w : Word} {r : Reject} (hw : decodeWord w = .error r)
    (lenient : s.cfg.strictSecondary = false ∨ isAmbiguous w = false) :
    s.dispatch w = .next (s.emitUnknown s.instrAddr w) := by
  rw [State.dispatch, if_neg (by rcases lenient with h | h <;> simp [h]), hw]

/-- An ambiguous word under STRICT_SECONDARY_DECODE faults, with itself as info (R185). -/
theorem State.dispatch_of_ambiguous {s : State} {w : Word} (strict : s.cfg.strictSecondary = true)
    (ambiguous : isAmbiguous w = true) :
    s.dispatch w = .next (s.raise .ambiguousEncoding s.instrAddr (some w) (some w)) := by
  rw [State.dispatch, if_pos ⟨strict, ambiguous⟩]

/-- The address of the instruction that the dispatch finds is that of the fetch (R175). -/
@[simp] theorem instrAddr_beforeDispatch (s : State) : (beforeDispatch s).instrAddr = s.pc :=
  BitVec.add_sub_cancel s.pc 2#16

/-- Settles O9: the step dispatches the word at pc, and the word runs its instruction. -/
theorem stepRunsDecodedInstruction : Obligations.StepRunsDecodedInstruction := by
  intro s w i tick running fetches hw decodes lenient
  rw [step_dispatches tick running fetches, ← (isWordAtPc_iff w s).1 hw]
  exact State.dispatch_of_ok decodes lenient

/-! ### The fetch check and the outcomes of a dispatch (R173, R178, R185) -/

/-- Not halted: the engine state is HALTED with none of the causes (R70). -/
theorem State.isHalted_eq_false_iff (s : State) : s.isHalted = false ↔ ∀ c, s.engine ≠ .halted c := by
  unfold State.isHalted
  cases s.engine <;> simp

/-- A fetch fault halts the cycle with pc and memory as they are (R173). -/
theorem State.cycle_of_fault {s : State} {c : Cause} (h : fetchCheck s.cfg s.pc = some c) :
    s.cycle = .next (s.raise c s.pc none (some s.pc)) := by
  rw [State.cycle, h]

/-- A fetch without a fault moves pc on and dispatches the word read (R172). -/
theorem State.cycle_of_fetch {s : State} (h : fetchCheck s.cfg s.pc = none) :
    s.cycle = s.advancePc.dispatch (s.fetchWord s.pc.toNat) := by
  rw [State.cycle, h]

/-- Settles O10: the three outcomes of the fetch check, in its order. -/
theorem fetchFaultsHaltAtTheAddress : Obligations.FetchFaultsHaltAtTheAddress := by
  intro s tick running
  rw [step_of_tickComes tick, State.instructionTick_running (s := s.spendInstr) running]
  rcases fetchCheck_cases s.cfg s.pc with ⟨odd, policy, e⟩ | ⟨aligned, outside, e⟩ | ⟨aligned, inside, e⟩
  · rw [if_pos ⟨odd, policy⟩]
    exact State.cycle_of_fault (s := s.spendInstr.clearOutputs) e
  · rw [if_neg aligned, if_pos outside]
    exact State.cycle_of_fault (s := s.spendInstr.clearOutputs) e
  · rw [if_neg aligned, if_neg (Nat.not_le.2 inside)]
    exact State.cycle_of_fetch (s := s.spendInstr.clearOutputs) e

/-- Settles O11: an undefined word is logged by the dispatch; a SYS word decodes to SYS, whose meaning is the same event. -/
theorem undefinedWordIsLoggedNoOp : Obligations.UndefinedWordIsLoggedNoOp := by
  refine ⟨fun s w r tick running fetches hw decodes lenient => ?_, fun s nnn notCls notRet => ⟨?_, rfl⟩⟩
  · rw [step_dispatches tick running fetches, ← (isWordAtPc_iff w s).1 hw,
      State.dispatch_of_error (s := beforeDispatch s) decodes lenient, instrAddr_beforeDispatch]
    rfl
  · have wf : wellFormed (.sys nnn) = true := by
      simpa [wellFormed, ← BitVec.toNat_inj, toNat_lowByte] using ⟨notCls, notRet⟩
    exact decodeWord_encode (i := .sys nnn) wf

/-- A dispatch in RUNNING either enters a fault of the word it was given, or goes on, with changed newly set by CLS and DRW
alone (R179, R182, R185). -/
theorem dispatch_outcome {s t : State} {w : Word} (running : s.engine = .running) (h : s.dispatch w = .next t) :
    (∃ c info, t = haltedBy s c s.instrAddr (some w) info ∧ c ≠ .misalignedFetch ∧ c ≠ .fetchOutOfRange ∧
      (c = .ambiguousEncoding → s.cfg.strictSecondary = true)) ∨
    (t.isHalted = false ∧
      (s.changed = false → (t.changed = true ↔ ∃ i, decodeWord w = .ok i ∧ draws i = true))) := by
  rcases s.dispatch_cases w with ⟨strict, -, e⟩ | ⟨-, ⟨i, hw, e⟩ | ⟨r, hw, e⟩⟩
  · rw [e] at h; cases h
    exact .inl ⟨_, _, rfl, by decide, by decide, fun _ => strict⟩
  · rw [e] at h
    rcases exec_cases h with ⟨c, info, rfl, notAmbiguous, notMisaligned, notOutside⟩ | ⟨he, -, hc⟩
    · obtain ⟨rfl, -⟩ := encodeOfDecodeIsIdentity w i hw
      exact .inl ⟨c, info, rfl, notMisaligned, notOutside, fun e => absurd e notAmbiguous⟩
    · refine .inr ⟨?_, fun quiet => ?_⟩
      · rcases he with e | ⟨x, e⟩ <;> simp [State.isHalted_eq_false_iff, e, running]
      · simp [hc, hw, quiet]
  · rw [e] at h; cases h
    exact .inr ⟨by simp [State.isHalted_eq_false_iff, running], fun quiet => by simp [quiet, hw]⟩

/-- Settles O12: the dispatch of an ambiguous word under STRICT_SECONDARY_DECODE, and its outcomes without. -/
theorem strictDecodeHaltsOnAmbiguousWord : Obligations.StrictDecodeHaltsOnAmbiguousWord := by
  refine ⟨fun s w tick running fetches hw strict ambiguous => ?_, fun s t w lenient running h halted => ?_⟩
  · rw [step_dispatches tick running fetches, ← (isWordAtPc_iff w s).1 hw,
      State.dispatch_of_ambiguous (s := beforeDispatch s) strict ambiguous, instrAddr_beforeDispatch]
    rfl
  · rcases dispatch_outcome running h with ⟨c, info, rfl, -, -, strict⟩ | ⟨goesOn, -⟩
    · cases halted
      exact absurd (strict rfl) (by simp [lenient])
    · exact absurd halted ((State.isHalted_eq_false_iff t).1 goesOn _)

/-! ### What an instruction tick comes to -/

/-- The state that a fetch fault leaves: pc, at its address, is also its info (R173, R342). -/
def fetchFaulted (s : State) (c : Cause) : State :=
  { haltedBy s c s.pc none (some s.pc) with accI := s.accI - instrPeriod s.cfg, unknownOpcode := none }

/-- The four ends of an instruction tick: it waits for a key, it meets a fetch fault, the word it dispatches faults, or it goes
on, with changed set by CLS and DRW alone (R173, R179, R182, R317). -/
theorem tickComes_outcome {s t : State} (tick : tickComes s) (h : step s = .next t) :
    (s.engine ≠ .running ∧ t.isHalted = false ∧ t.changed = false) ∨
    (∃ c, (c = .misalignedFetch ∨ c = .fetchOutOfRange) ∧ t = fetchFaulted s c) ∨
    (∃ c info, c ≠ .misalignedFetch ∧ c ≠ .fetchOutOfRange ∧
      t = haltedBy (beforeDispatch s) c s.pc (some (s.fetchWord s.pc.toNat)) info) ∨
    (s.engine = .running ∧ fetchable s ∧ t.isHalted = false ∧
      (t.changed = true ↔ ∃ i, decodeWord (s.fetchWord s.pc.toNat) = .ok i ∧ draws i = true)) := by
  rcases tickComes_cases tick h with ⟨x, waits, rfl⟩ | ⟨c, -, fault, rfl⟩ | ⟨running, fetches, hd⟩
  · refine .inl ⟨by simp [waits], ?_⟩
    rcases s.spendInstr.clearOutputs.keyWaitTick_cases x with ⟨k, -, e⟩ | ⟨-, e⟩ <;>
      simp [e, State.isHalted_eq_false_iff, waits]
  · refine .inr (.inl ⟨c, ?_, rfl⟩)
    rcases fetchCheck_cases s.cfg s.pc with ⟨-, -, e⟩ | ⟨-, -, e⟩ | ⟨-, -, e⟩ <;> cases e.symm.trans fault <;> simp
  · rcases dispatch_outcome (s := beforeDispatch s) running hd with
      ⟨c, info, rfl, notMisaligned, notOutside, -⟩ | ⟨goesOn, hc⟩
    · rw [instrAddr_beforeDispatch]
      exact .inr (.inr (.inl ⟨c, info, notMisaligned, notOutside, rfl⟩))
    · exact .inr (.inr (.inr ⟨running, (fetchable_iff s).2 fetches, goesOn, hc rfl⟩))

theorem State.instructionTick_halted {s : State} {c : Cause} (h : s.engine = .halted c) :
    s.instructionTick = .next s.clearOutputs := by
  unfold State.instructionTick; rw [h]

/-- Settles O15: of the four ends of a tick only one goes on in RUNNING, and there the word decides. -/
theorem changedOnlyAfterClsAndDrw : Obligations.ChangedOnlyAfterClsAndDrw := by
  refine ⟨fun s t tick h => ?_, fun s c => State.instructionTick_halted⟩
  rcases tickComes_outcome tick h with ⟨waits, -, quiet⟩ | ⟨c, -, rfl⟩ | ⟨c, info, -, -, rfl⟩ |
    ⟨running, fetches, goesOn, hc⟩
  · simp [waits, quiet]
  · simp [fetchFaulted, haltedBy, State.isHalted]
  · simp [haltedBy, State.isHalted]
  · simp [hc, running, fetches, goesOn, isWordAtPc_iff]

/-- A step that halts the engine is an instruction tick: no other event moves the engine state. -/
theorem tickComes_of_halts {s t : State} {c : Cause} (going : s.isHalted = false) (h : step s = .next t)
    (halted : t.engine = .halted c) : tickComes s := by
  have moved : t.engine ≠ s.engine := fun e =>
    (State.isHalted_eq_false_iff s).1 going c (e.symm.trans halted)
  rcases step_cases h with ⟨-, rfl⟩ | ⟨-, rfl⟩ | ⟨-, -, rfl⟩ | ⟨inside, -, due, -⟩ | ⟨-, -, -, -, rfl⟩
  · exact absurd rfl moved
  · exact absurd s.startIteration_keeps.1 moved
  · exact absurd rfl moved
  · exact ⟨inside, of_decide_eq_true due, going⟩
  · exact absurd rfl moved

/-- Settles O16: of the four ends of a tick the two that halt are a fetch fault and a fault of the word dispatched. -/
theorem faultsArePrecise : Obligations.FaultsArePrecise := by
  intro s t c going h halted
  rcases tickComes_outcome (tickComes_of_halts going h halted) h with ⟨-, goesOn, -⟩ | ⟨c', ofFetch, rfl⟩ |
    ⟨c', info, notMisaligned, notOutside, rfl⟩ | ⟨-, -, goesOn, -⟩
  · exact absurd halted ((State.isHalted_eq_false_iff t).1 goesOn c)
  · cases halted
    rw [if_pos ofFetch]
    rfl
  · cases halted
    rw [if_neg (not_or.2 ⟨notMisaligned, notOutside⟩)]
    exact ⟨_, info, (isWordAtPc_iff _ s).2 rfl, rfl⟩
  · exact absurd halted ((State.isHalted_eq_false_iff t).1 goesOn c)

/-! ### SKP and SKNP, each in its two cases (R310) -/

section
variable {s : State} (x : Nibble)

theorem exec_skp_of_some {k : Nibble} (key : keyIndex (s.reg x) = some k) :
    exec (.skp x) s = .next (s.skipIf (s.keyDown k)) := by
  simp only [exec, execSkp, key]

theorem exec_skp_of_none (noKey : keyIndex (s.reg x) = none) :
    exec (.skp x) s = .next (s.execFault .keyIndexOutOfRange (.skp x) (some (zextByte (s.reg x)))) := by
  simp only [exec, execSkp, noKey]

theorem exec_sknp_of_some {k : Nibble} (key : keyIndex (s.reg x) = some k) :
    exec (.sknp x) s = .next (s.skipIf (!s.keyDown k)) := by
  simp only [exec, execSknp, key]

theorem exec_sknp_of_none (noKey : keyIndex (s.reg x) = none) :
    exec (.sknp x) s = .next (s.execFault .keyIndexOutOfRange (.sknp x) (some (zextByte (s.reg x)))) := by
  simp only [exec, execSknp, noKey]

end

/-! ### Two quirk modes side by side (R181) -/

section
variable (q : QuirkMode) (s : State)

/-- No byte of memory depends on the quirk mode. -/
theorem readByte_withQuirk (a : Nat) : (withQuirk q s).readByte a = s.readByte a := rfl

theorem readBytes_withQuirk (a n : Nat) : (withQuirk q s).readBytes a n = s.readBytes a n := by
  induction n generalizing a with
  | zero => rfl
  | succ n ih => rw [State.readBytes, State.readBytes, ih, readByte_withQuirk]

theorem writeList_withQuirk (m : Memory) (a : Nat) (bs : List Byte) :
    m.writeList (withQuirk q s).cfg a bs = m.writeList s.cfg a bs := by
  induction bs generalizing m a with
  | nil => rfl
  | cons b rest ih => exact ih _ _

theorem writeBytes_withQuirk (a : Nat) (bs : List Byte) :
    (withQuirk q s).writeBytes a bs = withQuirk q (s.writeBytes a bs) :=
  congrArg (fun m => ({ withQuirk q s with mem := m } : State)) (writeList_withQuirk q s s.mem a bs)

theorem drawn_withQuirk (x y n : Nibble) : (withQuirk q s).drawn x y n = s.drawn x y n :=
  congrArg (Canvas.rows ⟨s.fb, false⟩ _ _) (readBytes_withQuirk q s _ _)

theorem skipIf_withQuirk (cond : Bool) : (withQuirk q s).skipIf cond = withQuirk q (s.skipIf cond) := by
  cases cond <;> rfl

/-- A checked access is inside memory, or faults, in both modes alike. -/
theorem withAccess_withQuirk (i : Instr) (n : Nat) (t : State) :
    (withQuirk q s).withAccess i n (withQuirk q t) = withQuirk q (s.withAccess i n t) := by
  unfold State.withAccess
  rw [apply_ite (withQuirk q)]
  rfl

end

/-- An instruction that does not consult the quirk mode commutes with a change of it. -/
theorem exec_withQuirk {i : Instr} {s t : State} (q : QuirkMode) (blind : consultsQuirk i = false)
    (h : exec i s = .next t) : exec i (withQuirk q s) = .next (withQuirk q t) := by
  cases i with
  | shr | shl | jpOff | ldMemVx | ldVxMem => cases blind
  | ret x =>
    cases top : s.stack with
    | nil => rw [exec_ret_of_nil x top] at h; cases h; exact exec_ret_of_nil (s := withQuirk q s) x top
    | cons a rest => rw [exec_ret_of_cons x top] at h; cases h; exact exec_ret_of_cons (s := withQuirk q s) x top
  | call nnn =>
    by_cases full : s.stack.length = s.cfg.stackCapacity
    · rw [exec_call_of_full nnn full] at h; cases h; exact exec_call_of_full (s := withQuirk q s) nnn full
    · rw [exec_call_of_room nnn full] at h; cases h; exact exec_call_of_room (s := withQuirk q s) nnn full
  | seImm | sneImm | seReg | sneReg => cases h; exact congrArg Host.Outcome.next (skipIf_withQuirk q s _)
  | skp x =>
    cases key : keyIndex (s.reg x) with
    | some k =>
      rw [exec_skp_of_some x key] at h; cases h
      rw [exec_skp_of_some (s := withQuirk q s) x key, skipIf_withQuirk]; rfl
    | none => rw [exec_skp_of_none x key] at h; cases h; exact exec_skp_of_none (s := withQuirk q s) x key
  | sknp x =>
    cases key : keyIndex (s.reg x) with
    | some k =>
      rw [exec_sknp_of_some x key] at h; cases h
      rw [exec_sknp_of_some (s := withQuirk q s) x key, skipIf_withQuirk]; rfl
    | none => rw [exec_sknp_of_none x key] at h; cases h; exact exec_sknp_of_none (s := withQuirk q s) x key
  | ldB x =>
    cases h
    refine congrArg Host.Outcome.next (Eq.trans ?_ (withAccess_withQuirk q s _ _ _))
    rw [← writeBytes_withQuirk]; rfl
  | drw x y n =>
    cases h
    refine congrArg Host.Outcome.next (Eq.trans ?_ (withAccess_withQuirk q s _ _ _))
    rw [drawn_withQuirk]; rfl
  | _ => cases h; rfl

/-- A state that tells the two quirk modes apart for each of the five instructions on V1, V2 and the base 0x300: V1 and V3 are
not zero, V0 and V2 are, and I lies inside memory. -/
def quirkProbe : State := (State.reset.setReg 1 2).setReg 3 1

/-- Each of the five leaves another V1, pc or I in one mode than in the other (R181). -/
theorem modes_differ {i : Instr} (hi : i ∈ [.shr 1 2, .shl 1 2, .jpOff 0x300, .ldMemVx 1, .ldVxMem 1]) :
    ∃ t u, exec i (withQuirk .legacy quirkProbe) = .next t ∧ exec i (withQuirk .modern quirkProbe) = .next u ∧
      (t.reg 1, t.pc, t.iReg) ≠ (u.reg 1, u.pc, u.iReg) := by
  simp only [List.mem_cons, List.not_mem_nil, or_false] at hi
  rcases hi with rfl | rfl | rfl | rfl | rfl <;> exact ⟨_, _, rfl, rfl, by decide⟩

/-- OR, AND and XOR reset VF, in either mode (R205, R206, R207). -/
theorem reg_vf_of_logic {i : Instr} {s t : State} {x y : Nibble} (hi : i ∈ [.orReg x y, .andReg x y, .xorReg x y])
    (h : exec i s = .next t) : t.reg vf = 0#8 := by
  have reset : ∀ b, (s.setResultFlag x b false).reg vf = 0#8 := fun b => s.reg_setResultFlag x vf b false
  simp only [List.mem_cons, List.not_mem_nil, or_false] at hi
  rcases hi with rfl | rfl | rfl <;> cases h <;> exact reset _

/-- Settles O31: thirty instructions commute with a change of mode, the probe state tells the modes apart for the other five,
and the logic instructions have one flag in both. -/
theorem quirkReachesExactlyFiveInstructions : Obligations.QuirkReachesExactlyFiveInstructions := by
  refine ⟨fun i s t q => exec_withQuirk q, fun i hi => ?_, fun i s t x y => reg_vf_of_logic⟩
  obtain ⟨t, u, legacy, modern, differ⟩ := modes_differ hi
  exact ⟨quirkProbe, t, u, legacy, modern, fun e => differ (by rw [← e]; rfl)⟩

/-! ### The word that withFetchWord places (log entry 7) -/

/-- A word stored at `a` is the word fetched from there (R101, R174). -/
theorem State.fetchWord_writeBytes {s : State} (hwf : s.mem.wf s.cfg = true) {a : Nat} (ha : a + 2 ≤ memSize) (w : Word) :
    (s.writeBytes a [highByteOf w, lowByteOf w]).fetchWord a = w := by
  rw [State.fetchWord, State.readByte_writeBytes hwf ha, State.readByte_writeBytes hwf ha]
  simp

/-- The instruction of a word numbered as the table numbers it is the one its word decodes to. -/
theorem decodeWord_tableWord {n w : Nat} {i : Instr} (h : decodeTableWord n w = some i) :
    decodeWord (tableWord n w) = .ok i := by
  simp only [decodeTableWord, decode, wordOfBytes_bytesOf] at h
  cases hd : decodeWord (tableWord n w) with
  | ok j => rw [hd] at h; cases h; rfl
  | error r => rw [hd] at h; cases h

/-- A fetchable pc is where the armed fetch takes place. -/
theorem State.armFetch_pc {s : State} (h : fetchable s) : s.armFetch.pc = s.pc := by
  simp [State.armFetch, (fetchable_iff s).1 h]

/-- In a state armed to fetch an instruction tick comes. -/
theorem State.tickComes_armFetch (s : State) : tickComes s.armFetch := by
  refine ⟨rfl, ?_, rfl⟩
  by_cases due : s.instrDue = true
  · simpa [State.armFetch, due] using of_decide_eq_true due
  · simp [State.armFetch, due]

/-- Settles O59: the armed state with the word in place meets the premises of a step that runs its instruction. -/
theorem fetchWordPlacesNextInstruction : Obligations.FetchWordPlacesNextInstruction := by
  intro s w i lenient hwf decodes fetches
  have hpc := State.armFetch_pc fetches
  have room : s.armFetch.pc.toNat + 2 ≤ memSize := hpc ▸ fetches.2
  have fetches' : fetchable (s.withFetchWord 16 w) := by
    unfold fetchable
    rw [show (s.withFetchWord 16 w).pc = s.pc from hpc]
    exact fetches
  have placed : isWordAtPc (tableWord 16 w) (s.withFetchWord 16 w) :=
    (isWordAtPc_iff _ _).2 (State.fetchWord_writeBytes (s := s.armFetch) hwf room _).symm
  refine ⟨beforeDispatch (s.withFetchWord 16 w),
    stepRunsDecodedInstruction _ _ i s.tickComes_armFetch rfl fetches' placed (decodeWord_tableWord decodes) (.inl lenient),
    congrArg (· + 2#16) hpc, rfl, rfl, rfl, rfl, rfl, rfl, rfl, rfl, fun a first second => ?_⟩
  have other : ¬ (s.armFetch.pc.toNat ≤ a ∧ a < s.armFetch.pc.toNat + 2) := by rw [hpc]; omega
  exact (State.readByte_writeBytes (s := s.armFetch) hwf room a).trans (if_neg other)

end Sys2Proof.Machine
end

section
/-! The register and arithmetic family: a result and its flag as the numbers of the claims, and what each of the instructions
writes. -/

namespace Sys2Proof.Machine

/-! ### The updates as the claims name them (R177) -/

section
variable (s : State) (x : Nibble) {b : Byte} {f : Bool}

theorem writesReg_setReg {value : Nat} (hb : b.toNat = value) : WritesReg x value s (s.setReg x b) :=
  ⟨rfl, (congrArg BitVec.toNat (s.reg_setReg_self x b)).trans hb, fun _ other => s.reg_setReg_ne b other⟩

/-- The flag is written last, so it is what stays when x = 0xF. -/
theorem writesRegAndFlag_setResultFlag {result flag : Nat} (hb : b.toNat = result) (hf : (flagByte f).toNat = flag) :
    WritesRegAndFlag x result flag s (s.setResultFlag x b f) := by
  refine ⟨rfl, fun notVf => ?_, ?_, fun r notX notVf => ?_⟩
  · rw [State.reg_setResultFlag, vf, if_neg notVf, if_pos rfl, hb]
  · rw [State.reg_setResultFlag, vf, if_pos rfl, hf]
  · rw [State.reg_setResultFlag, vf, if_neg notVf, if_neg notX]

end

/-! ### The flags as numbers -/

section
variable (a b : Byte)

theorem toNat_flagByte_decide (p : Prop) [Decidable p] : (flagByte (decide p)).toNat = if p then 1 else 0 := by
  by_cases h : p <;> simp [flagByte, h]

theorem toNat_flagByte_carryOut : (flagByte (carryOut a b)).toNat = if a.toNat + b.toNat > 255 then 1 else 0 :=
  toNat_flagByte_decide _

theorem toNat_flagByte_noBorrow : (flagByte (noBorrow a b)).toNat = if a.toNat ≥ b.toNat then 1 else 0 :=
  toNat_flagByte_decide _

/-- A bit of a byte as a flag. -/
theorem toNat_flagByte_getLsbD (k : Nat) : (flagByte (b.getLsbD k)).toNat = b.toNat / 2 ^ k % 2 := by
  rw [BitVec.getLsbD, Nat.testBit_eq_decide_div_mod_eq, toNat_flagByte_decide]
  split_ifs <;> omega

theorem toNat_flagByte_shiftedOutRight : (flagByte (shiftedOutRight b)).toNat = b.toNat % 2 := by
  rw [shiftedOutRight, toNat_flagByte_getLsbD, Nat.pow_zero, Nat.div_one]

theorem toNat_flagByte_shiftedOutLeft : (flagByte (shiftedOutLeft b)).toNat = b.toNat / 128 := by
  have hb := b.isLt
  rw [shiftedOutLeft, toNat_flagByte_getLsbD]
  omega

/-! ### The results as numbers -/

theorem toNat_sub_byte : (a - b).toNat = (a.toNat + 256 - b.toNat) % 256 := by
  have hb := b.isLt
  rw [BitVec.toNat_sub]
  omega

theorem toNat_shiftRight_one : (b >>> 1).toNat = b.toNat / 2 := by
  rw [BitVec.toNat_ushiftRight, Nat.shiftRight_one]

theorem toNat_shiftLeft_one : (b <<< 1).toNat = b.toNat * 2 % 256 := by
  rw [BitVec.toNat_shiftLeft, Nat.shiftLeft_eq, Nat.pow_one]

end

/-! ### SHR and SHL over the source of the quirk mode (R211, R212) -/

section
variable {s : State} (x y : Nibble)

theorem State.shiftSource_legacy (h : s.cfg.quirk = .legacy) : s.shiftSource x y = s.reg y := by
  unfold State.shiftSource; rw [h]

theorem State.shiftSource_modern (h : s.cfg.quirk = .modern) : s.shiftSource x y = s.reg x := by
  unfold State.shiftSource; rw [h]

theorem exec_shr_of_shiftSource {src : Byte} (h : s.shiftSource x y = src) :
    ∃ t, exec (.shr x y) s = .next t ∧ WritesRegAndFlag x (src.toNat / 2) (src.toNat % 2) s t :=
  h ▸ ⟨_, rfl, writesRegAndFlag_setResultFlag s x (toNat_shiftRight_one _) (toNat_flagByte_shiftedOutRight _)⟩

theorem exec_shl_of_shiftSource {src : Byte} (h : s.shiftSource x y = src) :
    ∃ t, exec (.shl x y) s = .next t ∧ WritesRegAndFlag x (src.toNat * 2 % 256) (src.toNat / 128) s t :=
  h ▸ ⟨_, rfl, writesRegAndFlag_setResultFlag s x (toNat_shiftLeft_one _) (toNat_flagByte_shiftedOutLeft _)⟩

end

/-! ### The obligations -/

/-- Settles O36: each of the three sets one register and nothing else. -/
theorem plainRegisterWritesLeaveNoFlag : Obligations.PlainRegisterWritesLeaveNoFlag := by
  refine fun x y nn s => ⟨⟨?_, ?_⟩, ⟨?_, ?_⟩, ⟨?_, ?_⟩⟩
  · exact decodeWord_encode (i := .ldImm x nn) rfl
  · exact ⟨_, rfl, writesReg_setReg s x rfl⟩
  · exact decodeWord_encode (i := .addImm x nn) rfl
  · exact ⟨_, rfl, writesReg_setReg s x (BitVec.toNat_add _ _)⟩
  · exact decodeWord_encode (i := .ldReg x y) rfl
  · exact ⟨_, rfl, writesReg_setReg s x rfl⟩

/-- Settles O37: each of the three writes its bitwise result and then the flag 0. -/
theorem logicOpsResetVf : Obligations.LogicOpsResetVf := by
  refine fun x y s => ⟨⟨?_, ?_⟩, ⟨?_, ?_⟩, ⟨?_, ?_⟩⟩
  · exact decodeWord_encode (i := .orReg x y) rfl
  · exact ⟨_, rfl, writesRegAndFlag_setResultFlag s x (BitVec.toNat_or _ _) rfl⟩
  · exact decodeWord_encode (i := .andReg x y) rfl
  · exact ⟨_, rfl, writesRegAndFlag_setResultFlag s x (BitVec.toNat_and _ _) rfl⟩
  · exact decodeWord_encode (i := .xorReg x y) rfl
  · exact ⟨_, rfl, writesRegAndFlag_setResultFlag s x (BitVec.toNat_xor _ _) rfl⟩

/-- Settles O38: the sum of bytes is the sum modulo 256, and its carry is the flag. -/
theorem addRegWritesCarry : Obligations.AddRegWritesCarry := fun x y s =>
  ⟨decodeWord_encode (i := .addReg x y) rfl,
    _, rfl, writesRegAndFlag_setResultFlag s x (BitVec.toNat_add _ _) (toNat_flagByte_carryOut _ _)⟩

/-- Settles O39: SUBN is SUB with its operands exchanged. -/
theorem subtractionsWriteNoBorrow : Obligations.SubtractionsWriteNoBorrow := by
  refine fun x y s => ⟨⟨?_, ?_⟩, ⟨?_, ?_⟩⟩
  · exact decodeWord_encode (i := .sub x y) rfl
  · exact ⟨_, rfl, writesRegAndFlag_setResultFlag s x (toNat_sub_byte _ _) (toNat_flagByte_noBorrow _ _)⟩
  · exact decodeWord_encode (i := .subn x y) rfl
  · exact ⟨_, rfl, writesRegAndFlag_setResultFlag s x (toNat_sub_byte _ _) (toNat_flagByte_noBorrow _ _)⟩

/-- Settles O40: the quirk mode says only which register is the source. -/
theorem shiftsMoveQuirkSource : Obligations.ShiftsMoveQuirkSource := by
  refine fun x y s => ⟨?_, ?_, fun legacy => ?_, fun modern => ?_⟩
  · exact decodeWord_encode (i := .shr x y) rfl
  · exact decodeWord_encode (i := .shl x y) rfl
  · have source := State.shiftSource_legacy x y legacy
    exact ⟨exec_shr_of_shiftSource x y source, exec_shl_of_shiftSource x y source⟩
  · have source := State.shiftSource_modern x y modern
    exact ⟨exec_shr_of_shiftSource x y source, exec_shl_of_shiftSource x y source⟩

/-- Settles O41: apart from the counter of draws, RND sets V[x] to the masked draw and nothing else. -/
theorem rndMasksOneDraw : Obligations.RndMasksOneDraw := fun x nn s =>
  ⟨decodeWord_encode (i := .rnd x nn) rfl, _, rfl, rfl, writesReg_setReg s x (BitVec.toNat_and _ _)⟩

end Sys2Proof.Machine
end

section
/-! The control transfer family: a jump's target as a number, the skips on registers and immediates, and calls and returns
nested to any depth. -/

namespace Sys2Proof.Machine

/-! ### A field widened to 16 bits, as a number (R133) -/

theorem toNat_zextAddr (a : Addr12) : (zextAddr a).toNat = a.toNat :=
  BitVec.toNat_setWidth_of_le (by decide)

theorem toNat_zextByte (b : Byte) : (zextByte b).toNat = b.toNat :=
  BitVec.toNat_setWidth_of_le (by decide)

/-- A 12-bit base and a byte add up to 0x10FE at most, so their sum is not truncated (R238). -/
theorem toNat_zextAddr_add_zextByte (a : Addr12) (b : Byte) : (zextAddr a + zextByte b).toNat = a.toNat + b.toNat := by
  have ha := a.isLt
  have hb := b.isLt
  rw [BitVec.toNat_add_of_lt (by rw [toNat_zextAddr, toNat_zextByte]; omega), toNat_zextAddr, toNat_zextByte]

/-- Two bytes add up to less than a word holds (R238). -/
theorem toNat_zextByte_add_zextByte (a b : Byte) : (zextByte a + zextByte b).toNat = a.toNat + b.toNat := by
  have ha := a.isLt
  have hb := b.isLt
  rw [BitVec.toNat_add_of_lt (by rw [toNat_zextByte, toNat_zextByte]; omega), toNat_zextByte, toNat_zextByte]

/-! ### The target of JP_OFF, mode by mode (R238) -/

theorem xOfAddr_append (x : Nibble) (nn : Byte) : xOfAddr (x ++ nn) = x := BitVec.extractLsb'_append_eq_left

theorem nnOfAddr_append (x : Nibble) (nn : Byte) : nnOfAddr (x ++ nn) = nn := BitVec.extractLsb'_append_eq_right

/-- nnn is x · 256 + nn (R131). -/
theorem toNat_append_byte (x : Nibble) (nn : Byte) : (x ++ nn).toNat = x.toNat * 256 + nn.toNat := toNat_append_eq x nn

section
variable {s : State} (nnn : Addr12)

theorem State.jumpOffTarget_legacy (legacy : s.cfg.quirk = .legacy) :
    s.jumpOffTarget nnn = zextAddr nnn + zextByte (s.reg 0x0#4) := by
  unfold State.jumpOffTarget; rw [legacy]

theorem State.jumpOffTarget_modern_nnn (modern : s.cfg.quirk = .modern) (base : s.cfg.bxnnBase = .nnn) :
    s.jumpOffTarget nnn = zextAddr nnn + zextByte (s.reg (xOfAddr nnn)) := by
  unfold State.jumpOffTarget; rw [modern, base]

theorem State.jumpOffTarget_modern_nn (modern : s.cfg.quirk = .modern) (base : s.cfg.bxnnBase = .nn) :
    s.jumpOffTarget nnn = zextByte (nnOfAddr nnn) + zextByte (s.reg (xOfAddr nnn)) := by
  unfold State.jumpOffTarget; rw [modern, base]

end

/-! ### A skip on a proposition and on its negation (R240) -/

section
variable (s : State) (p : Prop) [Decidable p]

theorem State.skipIf_decide : s.skipIf (decide p) = if p then s.skipNext else s := by
  simp only [State.skipIf, decide_eq_true_eq]

theorem State.skipIf_decide_not : s.skipIf (decide (¬ p)) = if p then s else s.skipNext := by
  rw [State.skipIf_decide, ite_not]

end

/-! ### Calls and returns in a row (R241) -/

/-- With room for all of them, CALLs leave their return addresses on the stack, the last saved on top, and change nothing else
but pc. -/
theorem callAll_of_room {calls : List (Word × Addr12)} {s : State}
    (room : s.stack.length + calls.length ≤ s.cfg.stackCapacity) :
    ∃ pc, callAll calls s = some { s with stack := (calls.map Prod.fst).reverse ++ s.stack, pc := pc } := by
  induction calls generalizing s with
  | nil => exact ⟨s.pc, rfl⟩
  | cons call rest ih =>
    obtain ⟨a, nnn⟩ := call
    rw [List.length_cons] at room
    have pushed := exec_call_of_room (s := s.setPc a) nnn (by simp only [State.setPc_stack, State.setPc_cfg]; omega)
    obtain ⟨pc, restCalled⟩ := ih (s := { s with stack := a :: s.stack, pc := zextAddr nnn })
      (by simp only [List.length_cons]; omega)
    refine ⟨pc, ?_⟩
    rw [callAll, pushed, List.map_cons, List.reverse_cons, List.append_assoc]
    exact restCalled

/-- As many RETs as addresses lie above a base give these addresses back from the top down, leave the base, and change nothing
else but pc. -/
theorem returnAll_of_append {saved base : List Word} {s : State} (top : s.stack = saved ++ base) :
    ∃ pc, returnAll saved.length s = some (saved, { s with stack := base, pc := pc }) := by
  induction saved generalizing s with
  | nil => exact ⟨s.pc, by rw [List.nil_append] at top; rw [← top]; rfl⟩
  | cons a rest ih =>
    have popped := exec_ret_of_cons 0#4 top
    obtain ⟨pc, restReturned⟩ := ih (s := { s with stack := rest ++ base, pc := a }) rfl
    refine ⟨pc, ?_⟩
    rw [List.length_cons, returnAll, popped]
    exact congrArg (Option.map fun p => (a :: p.1, p.2)) restReturned

/-! ### The obligations -/

/-- Settles O45: the CALLs put their addresses above the stack they find, and as many RETs take them off again; when the
addresses fill the stack, CALL overflows. -/
theorem nestedCallsReturnInOrder : Obligations.NestedCallsReturnInOrder := by
  intro calls s room
  obtain ⟨pc, called⟩ := callAll_of_room room
  obtain ⟨pc', returned⟩ := returnAll_of_append
    (s := { s with stack := (calls.map Prod.fst).reverse ++ s.stack, pc := pc }) rfl
  rw [List.length_reverse, List.length_map] at returned
  refine ⟨_, _, called, returned, rfl, rfl, rfl, rfl, rfl, fun full nnn => ⟨_, exec_call_of_full nnn ?_, rfl, rfl⟩⟩
  rw [List.length_append, List.length_reverse, List.length_map, Nat.add_comm]
  exact full

/-- Settles O42: pc is the target, zero-extended from twelve bits. -/
theorem jpSetsPc : Obligations.JpSetsPc := fun nnn _ =>
  ⟨decodeWord_encode (i := .jp nnn) rfl, _, rfl, toNat_zextAddr nnn, rfl⟩

/-- Settles O46: each of the four is a skip on its condition, and none of them reads n. -/
theorem skipsAddTwoWhenConditionHolds : Obligations.SkipsAddTwoWhenConditionHolds := by
  refine fun x y n nn s => ⟨⟨?_, ?_, ?_, ?_⟩, ?_, ?_, ?_, ?_⟩
  · exact decodeWord_encode (i := .seImm x nn) rfl
  · exact decodeWord_encode (i := .sneImm x nn) rfl
  · exact decodeWord_encode (i := .seReg x y n) rfl
  · exact decodeWord_encode (i := .sneReg x y n) rfl
  · exact congrArg Host.Outcome.next (s.skipIf_decide _)
  · exact congrArg Host.Outcome.next (s.skipIf_decide_not _)
  · exact congrArg Host.Outcome.next (s.skipIf_decide _)
  · exact congrArg Host.Outcome.next (s.skipIf_decide_not _)

/-- Settles O47: the target in each mode, with x and nn the fields of the address. -/
theorem jpOffAddsRegisterToBase : Obligations.JpOffAddsRegisterToBase := by
  refine fun x nn s => ⟨?_, s.setPc (s.jumpOffTarget (x ++ nn)), rfl, rfl,
    fun legacy => ?_, fun modern base => ?_, fun modern base => ?_⟩
  · rw [decodeWord_typeB (fieldType_xnn _ _ _), fieldNNN_xnn]
  · rw [State.setPc_pc, State.jumpOffTarget_legacy _ legacy, toNat_zextAddr_add_zextByte, toNat_append_byte]
  · rw [State.setPc_pc, State.jumpOffTarget_modern_nnn _ modern base, toNat_zextAddr_add_zextByte, toNat_append_byte,
      xOfAddr_append]
  · rw [State.setPc_pc, State.jumpOffTarget_modern_nn _ modern base, toNat_zextByte_add_zextByte, nnOfAddr_append,
      xOfAddr_append]

end Sys2Proof.Machine
end

section
/-! The index and memory family: what I becomes as a number, and the bytes and the registers that a range
access moves, inside memory and outside. -/

namespace Sys2Proof.Machine

/-- A number that fits the width is not truncated. -/
theorem toNat_ofNat_of_lt {n w : Nat} (fits : n < 2 ^ w) : (BitVec.ofNat w n).toNat = n := by
  rw [BitVec.toNat_ofNat, Nat.mod_eq_of_lt fits]

/-! ### The index register as a number (R262, R263, R265, R266) -/

theorem toNat_add_zextByte (a : Word) (b : Byte) : (a + zextByte b).toNat = (a.toNat + b.toNat) % 65536 := by
  rw [BitVec.toNat_add, toNat_zextByte]

/-- The glyphs of an admitted font lie below 0x200, so the address of one is not truncated (R17, R263). -/
theorem toNat_glyphAddr {c : Config} (admitted : c.fontBase + 80 ≤ 0x200) (b : Byte) :
    (glyphAddr c b).toNat = c.fontBase + 5 * (b.toNat % 16) :=
  toNat_ofNat_of_lt (by omega)

theorem State.toNat_indexAfter_legacy {s : State} (legacy : s.cfg.quirk = .legacy) (x : Nibble) :
    (s.indexAfter x).toNat = (s.iReg.toNat + x.toNat + 1) % 65536 := by
  unfold State.indexAfter
  rw [legacy]
  simp only [BitVec.toNat_add, BitVec.toNat_ofNat, Nat.add_mod_mod, Nat.add_assoc]

/-! ### Bytes read after a write of consecutive bytes (R104, R106) -/

section
variable {s : State} (hwf : s.mem.wf s.cfg = true) {a : Nat} {bs : List Byte} (fits : a + bs.length ≤ memSize)
include hwf fits

/-- The k-th byte written is read back k past the first address. -/
theorem State.readByte_writeBytes_add {k : Nat} (hk : k < bs.length) : (s.writeBytes a bs).readByte (a + k) = bs[k] := by
  have covered : a ≤ a + k ∧ a + k < a + bs.length := by omega
  rw [State.readByte_writeBytes hwf fits, if_pos covered, Nat.add_sub_cancel_left, List.getD_eq_getElem _ _ hk]

/-- A byte before the first address written or past the last is the old one. -/
theorem State.readByte_writeBytes_of_uncovered {a' : Nat} (uncovered : a' < a ∨ a + bs.length ≤ a') :
    (s.writeBytes a bs).readByte a' = s.readByte a' := by
  rw [State.readByte_writeBytes hwf fits, if_neg (by omega)]

end

/-! ### Registers loaded from memory (R266) -/

/-- A load of V0..V[x] from `a` on: V[k] is the byte at a + k, and a register above x is the old one. -/
theorem State.reg_loadRegs_readBytes (s : State) (a : Nat) (x k : Nibble) :
    (s.loadRegs 0 (s.readBytes a (x.toNat + 1))).reg k =
      if k.toNat ≤ x.toNat then s.readByte (a + k.toNat) else s.reg k := by
  have hx := x.isLt
  rw [State.reg_loadRegs _ _ _ (by rw [State.length_readBytes]; omega), State.length_readBytes]
  by_cases loaded : k.toNat ≤ x.toNat
  · rw [if_pos (by omega), if_pos loaded, Nat.sub_zero, State.getD_readBytes _ _ _ _ (by omega)]
  · rw [if_neg (by omega), if_neg loaded]

/-! ### LD_B and LD_VX_MEM inside memory, and an access that leaves it (R106) -/

section
variable {s : State} {x : Nibble}

theorem exec_ldB_of_inside (inside : s.iReg.toNat + 2 < memSize) :
    exec (.ldB x) s = .next (s.writeBytes s.iReg.toNat (bcdDigits (s.reg x))) :=
  congrArg Host.Outcome.next (State.withAccess_inside _ _ (.inr inside))

/-- The registers change by the load alone, so the state is written as an update of them and of I. -/
theorem exec_ldVxMem_of_inside (inside : s.iReg.toNat + x.toNat < memSize) :
    exec (.ldVxMem x) s = .next
      { s with v := (s.loadRegs 0 (s.readBytes s.iReg.toNat (x.toNat + 1))).v, iReg := s.indexAfter x } := by
  refine congrArg Host.Outcome.next ((State.withAccess_inside _ _ (.inr inside)).trans ?_)
  rw [State.loadRegs_eq]
  rfl

/-- An access of n + 1 bytes whose last is at or above 4096 enters the fault with the word of its instruction (R106, R341). -/
theorem State.withAccess_of_last_outside {s : State} {n : Nat} (i : Instr) (t : State) (outside : 4096 ≤ s.iReg.toNat + n) :
    s.withAccess i (n + 1) t = haltedBy s .memoryOutOfRange (s.pc - 2#16) (some (encode i))
      (some (BitVec.ofNat 16 (max s.iReg.toNat 4096))) :=
  State.withAccess_outside i t n.succ_ne_zero (Nat.lt_succ_of_le outside)

end

/-! ### The obligations -/

/-- Settles O50: the three digits are written in a row from I on, and each of them fits a byte. -/
theorem ldBStoresDecimalDigits : Obligations.LdBStoresDecimalDigits := by
  refine fun x s => ⟨decodeWord_encode (i := .ldB x) rfl, fun inside hwf => ?_, fun outside => ?_⟩
  · have hb := (s.reg x).isLt
    have written {k : Nat} (hk : k < 3) :=
      State.readByte_writeBytes_add hwf (bs := bcdDigits (s.reg x)) (Nat.succ_le_of_lt inside) hk
    refine ⟨_, exec_ldB_of_inside inside, rfl, ?_, ?_, ?_, fun a other => ?_⟩
    · exact (congrArg BitVec.toNat (written (k := 0) (by decide))).trans (toNat_ofNat_of_lt (by omega))
    · exact (congrArg BitVec.toNat (written (k := 1) (by decide))).trans (toNat_ofNat_of_lt (by omega))
    · exact (congrArg BitVec.toNat (written (k := 2) (by decide))).trans (toNat_ofNat_of_lt (by omega))
    · exact State.readByte_writeBytes_of_uncovered hwf inside other
  · exact congrArg Host.Outcome.next (State.withAccess_of_last_outside _ _ outside)

/-- Settles O51: byte I + k is the k-th register stored, and the quirk mode says only what I becomes. -/
theorem ldMemVxStoresRegisterRange : Obligations.LdMemVxStoresRegisterRange := by
  refine fun x s => ⟨decodeWord_encode (i := .ldMemVx x) rfl, fun inside hwf => ?_, fun outside => ?_⟩
  · have hlen := s.length_firstRegs (x.toNat + 1) x.isLt
    refine ⟨_, exec_ldMemVx_of_inside inside, rfl, fun k hk => ?_, fun a other => ?_, fun legacy => ?_, fun modern => ?_⟩
    · exact State.readByte_writeBytes_firstRegs hwf x.isLt inside k (Nat.lt_succ_of_le hk)
    · exact State.readByte_writeBytes_of_uncovered hwf (by rw [hlen]; exact inside) (by rw [hlen]; exact other)
    · exact State.toNat_indexAfter_legacy legacy x
    · exact State.indexAfter_modern modern x
  · exact congrArg Host.Outcome.next (State.withAccess_of_last_outside _ _ outside)

/-- Settles O52: V[k] is the k-th byte read, and the quirk mode says only what I becomes. -/
theorem ldVxMemLoadsRegisterRange : Obligations.LdVxMemLoadsRegisterRange := by
  refine fun x s => ⟨decodeWord_encode (i := .ldVxMem x) rfl, fun inside => ?_, fun outside => ?_⟩
  · have loaded := s.reg_loadRegs_readBytes s.iReg.toNat x
    refine ⟨_, exec_ldVxMem_of_inside inside, rfl, fun k hk => ?_, fun k hk => ?_, fun _ => rfl, fun legacy => ?_,
      fun modern => ?_⟩
    · exact (loaded k).trans (if_pos hk)
    · exact (loaded k).trans (if_neg (Nat.not_le_of_lt hk))
    · exact State.toNat_indexAfter_legacy legacy x
    · exact State.indexAfter_modern modern x
  · exact congrArg Host.Outcome.next (State.withAccess_of_last_outside _ _ outside)

/-- Settles O48: I is the address, zero-extended from twelve bits. -/
theorem ldISetsIndex : Obligations.LdISetsIndex := fun nnn _ =>
  ⟨decodeWord_encode (i := .ldI nnn) rfl, _, rfl, toNat_zextAddr nnn, rfl⟩

/-- Settles O49: each of the two sets I alone, ADD_I to the sum modulo 65536 and LD_F to the address of a glyph. -/
theorem indexArithmeticWritesOnlyIndex : Obligations.IndexArithmeticWritesOnlyIndex := by
  refine fun x s => ⟨⟨?_, ?_⟩, ⟨?_, fun admitted => ?_⟩⟩
  · exact decodeWord_encode (i := .addI x) rfl
  · exact ⟨_, rfl, toNat_add_zextByte _ _, rfl⟩
  · exact decodeWord_encode (i := .ldF x) rfl
  · exact ⟨_, rfl, toNat_glyphAddr admitted _, rfl⟩

end Sys2Proof.Machine
end

section
/-! The display family: the cells and the collision of DRW in the terms of the claims, the same sprite drawn a second time, and
a step that moves the framebuffer. -/

namespace Sys2Proof.Machine

/-! ### The sprite's bits (R290, R291) -/

/-- The rows that DRW reads at I have the bits of the sprite. -/
theorem rowsBit_readBytes (s : State) (x0 y0 n c r : Nat) :
    rowsBit x0 y0 (s.readBytes s.iReg.toNat n) c r = spriteBit s x0 y0 n c r := by
  rw [rowsBit, rowBit, spriteBit, State.length_readBytes]
  by_cases inRows : y0 ≤ r ∧ r < y0 + n
  · rw [State.getD_readBytes _ _ _ _ (by omega)]
    simp [inRows]
  · simp [inRows]

/-- A set cell lies inside the grid. -/
theorem Framebuffer.inside_of_get {f : Framebuffer} {c r : Nat} (isSet : f.get c r = true) : c < 64 ∧ r < 32 := by
  by_contra outside
  rw [Framebuffer.get_outside f outside] at isSet
  cases isSet

section
variable (s : State) (x y n : Nibble)

/-- Each cell of the grid takes its sprite bit by XOR (R291). -/
theorem State.get_drawn {c r : Nat} (hc : c < 64) (hr : r < 32) : (s.drawn x y n).fb.get c r =
    (s.fb.get c r ^^ spriteBit s ((s.reg x).toNat % 64) ((s.reg y).toNat % 32) n.toNat c r) := by
  rw [State.drawn, Canvas.get_rows _ _ _ _ _ _ ⟨hc, hr⟩, rowsBit_readBytes]

/-- A collision is a sprite bit on a set cell of the grid (R292). -/
theorem State.hit_drawn : (s.drawn x y n).hit = true ↔ ∃ c r : Nat, c < 64 ∧ r < 32 ∧ s.fb.get c r = true ∧
    spriteBit s ((s.reg x).toNat % 64) ((s.reg y).toNat % 32) n.toNat c r = true := by
  simp only [State.drawn, Canvas.hit_rows, rowsBit_readBytes, Bool.false_eq_true, false_or]
  constructor
  · rintro ⟨c, r, bit, isSet⟩
    obtain ⟨hc, hr⟩ := Framebuffer.inside_of_get isSet
    exact ⟨c, r, hc, hr, isSet, bit⟩
  · rintro ⟨c, r, -, -, isSet, bit⟩
    exact ⟨c, r, bit, isSet⟩

/-- With every row inside memory DRW presents what it draws and writes the collision to VF (R292, R295). -/
theorem exec_drw_of_inside (inside : n.toNat = 0 ∨ s.iReg.toNat + n.toNat ≤ 4096) : exec (.drw x y n) s =
    .next ((s.present (s.drawn x y n).fb).setReg vf (flagByte (s.drawn x y n).hit)) :=
  congrArg Host.Outcome.next (State.withAccess_inside _ _ inside)

end

/-! ### A flag as VF holds it (R52) -/

theorem flagByte_eq_one_or_zero (f : Bool) : flagByte f = 1#8 ∨ flagByte f = 0#8 := by
  cases f <;> simp [flagByte]

theorem flagByte_eq_one_iff (f : Bool) : flagByte f = 1#8 ↔ f = true := by
  cases f <;> simp [flagByte]

/-! ### The same sprite a second time (R293) -/

/-- Rows drawn at the same place twice leave every cell as it was: the second XOR takes the first back. -/
theorem Canvas.rows_rows (a : Canvas) (hit : Bool) (x0 r0 : Nat) (rows : List Byte) :
    (Canvas.rows ⟨(a.rows x0 r0 rows).fb, hit⟩ x0 r0 rows).fb = a.fb := by
  refine Framebuffer.ext_get fun c r hc hr => ?_
  rw [Canvas.get_rows _ _ _ _ _ _ ⟨hc, hr⟩, Canvas.get_rows _ _ _ _ _ _ ⟨hc, hr⟩, Bool.xor_assoc, Bool.xor_self,
    Bool.xor_false]

/-- What DRW draws in a state that differs from an earlier one only off the sprite and its place (R293). -/
theorem State.drawn_drawn {s u : State} {x y x' y' n : Nibble} (drew : u.fb = (s.drawn x y n).fb) (hI : u.iReg = s.iReg)
    (hmem : u.mem = s.mem) (hcfg : u.cfg = s.cfg) (hx : (u.reg x').toNat % 64 = (s.reg x).toNat % 64)
    (hy : (u.reg y').toNat % 32 = (s.reg y).toNat % 32) : (u.drawn x' y' n).fb = s.fb := by
  have sameRows : u.readBytes u.iReg.toNat n.toNat = s.readBytes s.iReg.toNat n.toNat := by
    rw [hI, State.readBytes_congr hmem hcfg]
  rw [State.drawn, drew, hx, hy, sameRows]
  exact Canvas.rows_rows _ _ _ _ _

/-! ### A step that moves the framebuffer (R293) -/

/-- An instruction tick that moves the framebuffer dispatches one of the two instructions that draw. -/
theorem tickComes_draws {s t : State} (tick : tickComes s) (h : step s = .next t) (moved : t.fb ≠ s.fb) :
    s.engine = .running ∧ ∃ w i, isWordAtPc w s ∧ decodeWord w = .ok i ∧ draws i = true := by
  rcases tickComes_cases tick h with ⟨x, -, rfl⟩ | ⟨c, -, -, rfl⟩ | ⟨running, -, hd⟩
  · rcases s.spendInstr.clearOutputs.keyWaitTick_cases x with ⟨k, -, e⟩ | ⟨-, e⟩ <;> simp [e] at moved
  · exact absurd rfl moved
  · rcases (beforeDispatch s).dispatch_cases (s.fetchWord s.pc.toNat) with ⟨-, -, e⟩ | ⟨-, ⟨i, hw, e⟩ | ⟨r, -, e⟩⟩
    · cases e.symm.trans hd; exact absurd rfl moved
    · have effect := exec_effect (e.symm.trans hd)
      exact ⟨running, _, i, (isWordAtPc_iff _ s).2 rfl, hw, Bool.of_not_eq_false fun quiet => moved (effect.fb quiet)⟩
    · cases e.symm.trans hd; exact absurd rfl moved

/-- Of the five events of a step only an instruction tick moves the framebuffer. -/
theorem tickComes_of_fb_ne {s t : State} (h : step s = .next t) (moved : t.fb ≠ s.fb) : tickComes s := by
  rcases step_cases h with ⟨-, rfl⟩ | ⟨-, rfl⟩ | ⟨-, -, rfl⟩ | ⟨inside, notHalted, due, -⟩ | ⟨-, -, -, -, rfl⟩
  · exact absurd rfl moved
  · obtain ⟨-, -, -, -, -, -, -, -, -, hfb, -⟩ := s.startIteration_keeps
    exact absurd hfb moved
  · exact absurd rfl moved
  · exact ⟨inside, of_decide_eq_true due, notHalted⟩
  · exact absurd rfl moved

/-! ### The obligations -/

/-- Settles O53: CLS presents the framebuffer with no cell set and does nothing else. -/
theorem clsClearsEveryCell : Obligations.ClsClearsEveryCell := fun x _ =>
  ⟨decodeWord_encode (i := .cls x) rfl, _, rfl, fun c r _ _ => Framebuffer.get_clear c r, rfl, rfl⟩

/-- Settles O54: inside memory what is drawn is presented and VF holds the collision; outside the access faults first. -/
theorem drwXorsSpriteAndReportsCollision : Obligations.DrwXorsSpriteAndReportsCollision := by
  refine fun x y n s => ⟨decodeWord_encode (i := .drw x y n) rfl, fun inside => ?_, fun rows outside => ?_⟩
  · refine ⟨_, exec_drw_of_inside s x y n inside, fun c r hc hr => s.get_drawn x y n hc hr, ?_, ?_, fun r hr => ?_, rfl⟩
    · exact (State.reg_setReg_self _ vf _).symm ▸ flagByte_eq_one_or_zero _
    · rw [← s.hit_drawn, ← flagByte_eq_one_iff]
      exact Eq.congr_left (State.reg_setReg_self _ vf _)
    · exact State.reg_setReg_ne _ _ hr
  · exact congrArg Host.Outcome.next (State.withAccess_outside _ _ rows outside)

/-- Settles O55: a step that moves the framebuffer is a tick that draws; what DRW drew, the same DRW takes back. -/
theorem framebufferPersistsAndDrwIsSelfInverse : Obligations.FramebufferPersistsAndDrwIsSelfInverse := by
  refine ⟨fun _ _ h moved => tickComes_draws (tickComes_of_fb_ne h moved) h moved,
    fun x y x' y' n s t u inside first drew hI hmem hcfg hx hy => ?_⟩
  cases (exec_drw_of_inside s x y n inside).symm.trans first
  exact ⟨_, exec_drw_of_inside u x' y' n (hI ▸ inside), State.drawn_drawn drew hI hmem hcfg hx hy, rfl, rfl⟩

end Sys2Proof.Machine
end

section
/-! The keypad and timer family: the lowest key that qualifies, the tick in AWAITING_KEY in its two cases, the key that a byte
names, and the instructions of the family. -/

namespace Sys2Proof.Machine

/-! ### The tick in AWAITING_KEY (R317, R318) -/

section
variable {s : State} {x k : Nibble}

/-- A key ends the wait when it is down and, under the edge policy alone, was up in the latch (R318). -/
theorem State.keyQualifies_iff : s.keyQualifies k = true ↔
    s.keyDown k = true ∧ (s.cfg.keyWait = .edge → s.keyLatch[k.toNat]'(k.isLt) = false) := by
  unfold State.keyQualifies
  cases s.cfg.keyWait with
  | edge => simp
  | level => simp

theorem State.keyWaitTick_of_no_key (noKey : ∀ k, s.keyQualifies k = false) :
    s.keyWaitTick x = { s with keyLatch := s.keysNow } := by
  rw [State.keyWaitTick, State.lowestKey, s.lowestFrom_none 0 16 noKey]

theorem State.keyWaitTick_of_lowest (qualifies : s.keyQualifies k = true)
    (lowest : ∀ j : Nibble, j.toNat < k.toNat → s.keyQualifies j = false) :
    s.keyWaitTick x = { s.setReg x (k.setWidth 8) with keyLatch := s.keysNow, engine := .running } := by
  rw [State.keyWaitTick, State.lowestKey, s.lowestFrom_some 0 16 rfl k k.toNat.zero_le qualifies lowest]

/-- In AWAITING_KEY nothing is fetched: the step spends a period, clears the outputs and looks at the keypad (R317). -/
theorem step_of_awaitingKey (tick : tickComes s) (waits : s.engine = .awaitingKey x) :
    step s = .next (s.spendInstr.clearOutputs.keyWaitTick x) := by
  rw [step_of_tickComes tick, State.instructionTick_awaiting (s := s.spendInstr) waits]

end

/-! ### The key a byte names (R310) -/

theorem keyIndex_of_toNat_eq {b : Byte} {k : Nibble} (named : b.toNat = k.toNat) : keyIndex b = some k := by
  rcases keyIndex_cases b with ⟨-, j, e, hj⟩ | ⟨beyond, -⟩
  · rw [e, BitVec.eq_of_toNat_eq (hj.trans named)]
  · have := k.isLt
    omega

theorem keyIndex_of_beyond {b : Byte} (beyond : 0x10 ≤ b.toNat) : keyIndex b = none := by
  rcases keyIndex_cases b with ⟨small, -⟩ | ⟨-, e⟩
  · omega
  · exact e

theorem State.skipIf_not (s : State) (cond : Bool) : s.skipIf (!cond) = if cond then s else s.skipNext := by
  cases cond <;> rfl

/-- The fault entry of SKP or SKNP, its info the byte as the claims write it (R310, R341). -/
theorem State.execFault_byte (s : State) (c : Cause) (i : Instr) (b : Byte) : s.execFault c i (some (zextByte b)) =
    haltedBy s c (s.pc - 2#16) (some (encode i)) (some (BitVec.ofNat 16 b.toNat)) := by
  rw [BitVec.ofNat_toNat]
  rfl

/-! ### The obligations -/

/-- Settles O14: with no key that qualifies only the latch moves; otherwise the search stops at the lowest of them. -/
theorem keyWaitTickEndsOnLowestKey : Obligations.KeyWaitTickEndsOnLowestKey := by
  refine fun s x tick waits => ⟨fun noKey => ?_, fun k qualifies lowest => ?_, fun k => State.keyQualifies_iff⟩
  · have stays : s.spendInstr.clearOutputs.keyWaitTick x = _ := State.keyWaitTick_of_no_key noKey
    exact ⟨_, (step_of_awaitingKey tick waits).trans (congrArg Host.Outcome.next stays), s.keysNow_get, rfl⟩
  · have ends : s.spendInstr.clearOutputs.keyWaitTick x = _ := State.keyWaitTick_of_lowest qualifies lowest
    have number : (k.setWidth 8).toNat = k.toNat := BitVec.toNat_setWidth_of_le (by decide)
    obtain ⟨-, written, kept⟩ := writesReg_setReg s x number
    exact ⟨_, (step_of_awaitingKey tick waits).trans (congrArg Host.Outcome.next ends), s.keysNow_get, written, kept, rfl⟩

/-- Settles O56: below 0x10 each of the two is a skip on the key that V[x] names, and from there on a fault. -/
theorem keySkipsReadTheNamedKey : Obligations.KeySkipsReadTheNamedKey := by
  refine fun x s => ⟨decodeWord_encode (i := .skp x) rfl, decodeWord_encode (i := .sknp x) rfl,
    fun k named => ?_, fun beyond => ?_⟩
  · have key := keyIndex_of_toNat_eq named
    exact ⟨exec_skp_of_some x key, (exec_sknp_of_some x key).trans (congrArg Host.Outcome.next (s.skipIf_not _))⟩
  · have noKey := keyIndex_of_beyond beyond
    exact ⟨(exec_skp_of_none x noKey).trans (congrArg Host.Outcome.next (s.execFault_byte _ _ _)),
      (exec_sknp_of_none x noKey).trans (congrArg Host.Outcome.next (s.execFault_byte _ _ _))⟩

/-- Settles O57: FX07 writes a register, and each of the other two one timer. -/
theorem timerInstructionsCopy : Obligations.TimerInstructionsCopy := by
  refine fun x s => ⟨⟨?_, ?_⟩, ⟨?_, ?_⟩, ⟨?_, ?_⟩⟩
  · exact decodeWord_encode (i := .ldVxDt x) rfl
  · exact ⟨_, rfl, writesReg_setReg s x rfl⟩
  · exact decodeWord_encode (i := .ldDtVx x) rfl
  · rfl
  · exact decodeWord_encode (i := .ldStVx x) rfl
  · rfl

/-- Settles O58: the latch is a sample of the keypad, and no key is looked for. -/
theorem ldVxKEntersTheWait : Obligations.LdVxKEntersTheWait := fun x s =>
  ⟨decodeWord_encode (i := .ldVxK x) rfl, _, rfl, rfl, s.keysNow_get, rfl⟩

end Sys2Proof.Machine
end

section
/-! The exceptions family: the step in each of its events, runs of several steps, the two ends of an outer iteration, and its two
loops, which the steps go through one tick at a time. -/

namespace Sys2Proof.Machine

/-! ### The step, each event apart (R354 to R356, R367) -/

section
variable {s : State}

theorem step_of_ended (ended : s.phase = .ended) : step s = .next s := by
  simp [step, State.nextEvent, ended]

theorem step_of_between (between : s.phase = .between) : step s = .next s.startIteration := by
  simp [step, State.nextEvent, between]

/-- With the engine HALTED, or with no tick due, the iteration ends (R356, R367). -/
theorem step_of_ticks_over (inside : s.phase = .inside)
    (settled : s.isHalted = true ∨ s.instrDue = false ∧ s.timerDue = false) : step s = .next s.endIteration := by
  rcases settled with halted | ⟨noInstr, noTimer⟩
  · simp [step, State.nextEvent, inside, halted]
  · simp [step, State.nextEvent, inside, noInstr, noTimer]

/-- The timer ticks come once no instruction tick is due (R355, R356). -/
theorem step_of_timerDue (inside : s.phase = .inside) (going : s.isHalted = false) (noInstr : s.instrDue = false)
    (due : s.timerDue = true) : step s = .next s.spendTimer.timerTick := by
  simp [step, State.nextEvent, inside, going, noInstr, due]

end

/-- Settles O18: of the events of a step only the instruction tick could answer otherwise, and it answers a next state. -/
theorem stepAlwaysAnswersNext : Obligations.StepAlwaysAnswersNext := by
  intro s
  cases place : s.phase with
  | ended => exact ⟨_, step_of_ended place⟩
  | between => exact ⟨_, step_of_between place⟩
  | inside =>
    cases halted : s.isHalted with
    | true => exact ⟨_, step_of_ticks_over place (.inl halted)⟩
    | false =>
      cases instr : s.instrDue with
      | true =>
        rw [step_of_tickComes ⟨place, of_decide_eq_true instr, halted⟩]
        exact s.spendInstr.instructionTick_answers
      | false =>
        cases timer : s.timerDue with
        | true => exact ⟨_, step_of_timerDue place halted instr timer⟩
        | false => exact ⟨_, step_of_ticks_over place (.inr ⟨instr, timer⟩)⟩

/-! ### Runs -/

/-- What every step keeps, a run of any number of steps keeps, and the run answers a next state. -/
theorem run_keeps {P : State → Prop} (step_keeps : ∀ s t, P s → step s = .next t → P t) (n : Nat) {s : State}
    (start : P s) : ∃ t, Sys2Proof.core.run n s = .next t ∧ P t := by
  induction n generalizing s with
  | zero => exact ⟨s, rfl, start⟩
  | succ n ih =>
    obtain ⟨u, hu⟩ := stepAlwaysAnswersNext s
    rw [run_succ_of_next n hu]
    exact ih (step_keeps s u start hu)

/-- Settles O17: in HALTED the only events are the two ends of an iteration and the end of the run, and they leave the engine
as it is. -/
theorem haltedIsAbsorbing : Obligations.HaltedIsAbsorbing := by
  intro n s c halted
  refine run_keeps (fun u v kept h => ?_) n ⟨halted, rfl, rfl, rfl, rfl, rfl, rfl, rfl, rfl, rfl, rfl⟩
  have noTick : u.isHalted ≠ false := fun going => (State.isHalted_eq_false_iff u).1 going c kept.1
  rcases step_cases h with ⟨-, rfl⟩ | ⟨-, rfl⟩ | ⟨-, -, rfl⟩ | ⟨-, going, -⟩ | ⟨-, going, -⟩
  · exact kept
  · simpa only [u.startIteration_keeps] using kept
  · exact kept
  · exact absurd going noTick
  · exact absurd going noTick

/-- Settles O25: the step of an ended run answers the state it was given. -/
theorem endedRunStaysAsItIs : Obligations.EndedRunStaysAsItIs := by
  intro n s ended
  induction n with
  | zero => rfl
  | succ n ih => rw [run_succ_of_next n (step_of_ended ended), ih]

/-! ### The two ends of an outer iteration (R356) -/

/-- Taking the input `h` at the head of the queue, or the free one past its end (log entry 5). -/
theorem State.takeInput_eq {s : State} {h : HostInput} {rest : List HostInput} (taken : s.nextInput = h)
    (left : s.inputs.tail = rest) : s.takeInput = withInput h rest s := by
  rw [State.takeInput, taken, left]
  rfl

/-- Settles O22: the queue and the free input give the same start of an iteration, and its condition is that of R356. -/
theorem iterationStartTakesHostInput : Obligations.IterationStartTakesHostInput := by
  intro s h rest between coming
  have ⟨taken, left⟩ : s.nextInput = h ∧ s.inputs.tail = rest := by
    rcases coming with queued | ⟨empty, rfl, rfl⟩
    · exact ⟨State.nextInput_of_cons queued, by rw [queued, List.tail_cons]⟩
    · exact ⟨State.nextInput_of_nil empty, by rw [empty, List.tail_nil]⟩
  have goesOn : ((withInput h rest s).running = true ∧ s.isHalted = false) ↔
      (s.running = true ∧ h.quit = false ∧ s.isHalted = false) := by
    simp [withInput, and_assoc]
  rw [step_of_between between, State.startIteration, State.takeInput_eq taken left, taken, if_congr goesOn rfl rfl]
  rfl

/-- The end of an iteration in the terms of the claims: the audio gate is ST > 0 (R88, R352). -/
theorem State.endIteration_eq (s : State) :
    s.endIteration =
      { s with phase := .between, framePort := s.frameChanged, audioPort := decide (0 < s.st.toNat) } := by
  have gate : s.audioGate = decide (0 < s.st.toNat) := by
    simp [State.audioGate, Nat.pos_iff_ne_zero, ← BitVec.toNat_inj]
  rw [State.endIteration, gate]

theorem State.instrDue_eq_false_iff (s : State) : s.instrDue = false ↔ s.accI < instrPeriod s.cfg := by
  simp [State.instrDue]

theorem State.timerDue_eq_false_iff (s : State) : s.timerDue = false ↔ s.accT < timerPeriod := by
  simp [State.timerDue]

/-- Settles O24: with less than a period in both accumulators no tick is due. -/
theorem iterationEndSamplesOutputs : Obligations.IterationEndSamplesOutputs := by
  intro s inside _ noInstr noTimer
  rw [← timerPeriod_eq] at noTimer
  rw [step_of_ticks_over inside (.inr ⟨s.instrDue_eq_false_iff.2 noInstr, s.timerDue_eq_false_iff.2 noTimer⟩),
    s.endIteration_eq]

/-- Settles O60: in HALTED no tick is left to come. -/
theorem haltedIterationStillSamplesOutputs : Obligations.HaltedIterationStillSamplesOutputs := by
  intro s inside halted
  rw [step_of_ticks_over inside (.inl halted), s.endIteration_eq]

/-! ### Timer ticks (R351, R355, R357) -/

/-- Settles O19: the step is the timer tick with its period spent. -/
theorem timerTickCountsBothDown : Obligations.TimerTickCountsBothDown := by
  intro s inside going noInstr due
  have due' : s.timerDue = true := decide_eq_true (timerPeriod_eq ▸ due)
  refine ⟨_, step_of_timerDue inside going (s.instrDue_eq_false_iff.2 noInstr) due', ?_, toNat_countDown _, toNat_countDown _⟩
  rw [← timerPeriod_eq]
  rfl

/-- Settles O20, by induction on the periods: the first tick spends one, and the rest are worth one less. -/
theorem timerPeriodsCountExactly : Obligations.TimerPeriodsCountExactly := by
  intro k
  induction k with
  | zero => intro s _ _ _ _; exact ⟨s, rfl, by rw [Nat.cast_zero, zero_div, sub_zero], rfl, rfl⟩
  | succ k ih =>
    intro s inside going noInstr worth
    rw [Nat.cast_succ, add_div] at worth
    have first : 1 / 60 ≤ s.accT := by linarith [show (0 : Rat) ≤ (k : Rat) / 60 by positivity]
    obtain ⟨t, ht, et, hdt, hst⟩ := timerTickCountsBothDown s inside going noInstr first
    have accT : t.accT = s.accT - 1 / 60 := by rw [et]
    obtain ⟨u, hu, eu, hdu, hsu⟩ := ih t (by rw [et]; exact inside) (by rw [et]; exact going)
      (by rw [et]; exact noInstr) (by linarith)
    refine ⟨u, (run_succ_of_next k ht).trans hu, ?_, by omega, by omega⟩
    have spent : t.accT - (k : Rat) / 60 = s.accT - ((k + 1 : Nat) : Rat) / 60 := by
      rw [accT, Nat.cast_succ]; ring
    rw [spent, et] at eu
    exact eu

/-! ### The loops, one tick at a time (R354, R355) -/

section
variable {s t : State}

theorem State.instructionLoop_of_tick (k : Nat) (ticks : s.instrDue = true ∧ s.isHalted = false)
    (tick : s.spendInstr.instructionTick = .next t) :
    State.instructionLoop (k + 1) s = State.instructionLoop k t := by
  rw [State.instructionLoop, if_pos ticks, tick]

theorem State.instructionLoop_of_no_tick (k : Nat) (noTick : ¬ (s.instrDue = true ∧ s.isHalted = false)) :
    State.instructionLoop k s = .next s := by
  cases k with
  | zero => rfl
  | succ k => rw [State.instructionLoop, if_neg noTick]

/-- The tick of the loop spends its period and leaves the place in the iteration. -/
theorem State.spendInstr_tick_answers (s : State) :
    ∃ t, s.spendInstr.instructionTick = .next t ∧ t.cfg = s.cfg ∧ t.accI = s.accI - instrPeriod s.cfg ∧
      t.phase = s.phase :=
  have ⟨t, tick⟩ := s.spendInstr.instructionTick_answers
  have kept := State.instructionTick_keeps tick
  ⟨t, tick, kept.cfg, kept.accI, kept.phase⟩

theorem State.timerLoop_of_tick (k : Nat) (ticks : s.timerDue = true ∧ s.isHalted = false) :
    State.timerLoop (k + 1) s = State.timerLoop k s.spendTimer.timerTick := by
  rw [State.timerLoop, if_pos ticks]

theorem State.timerLoop_of_no_tick (k : Nat) (noTick : ¬ (s.timerDue = true ∧ s.isHalted = false)) :
    State.timerLoop k s = s := by
  cases k with
  | zero => rfl
  | succ k => rw [State.timerLoop, if_neg noTick]

/-- As many ticks as acc_i holds periods for spend those periods, unless the engine halts (R354). -/
theorem State.accI_of_instructionLoop {k : Nat} (admitted : s.cfg.wf = true) (worth : k * instrPeriod s.cfg ≤ s.accI)
    (h : State.instructionLoop k s = .next t) (going : t.isHalted = false) :
    t.accI = s.accI - k * instrPeriod s.cfg := by
  induction k generalizing s with
  | zero => cases h; simp
  | succ k ih =>
    have positive := instrPeriod_pos admitted
    rw [Nat.cast_succ, add_one_mul] at worth ⊢
    have due : s.instrDue = true :=
      decide_eq_true (by linarith [mul_nonneg (Nat.cast_nonneg (α := Rat) k) positive.le])
    by_cases ticks : s.instrDue = true ∧ s.isHalted = false
    · obtain ⟨u, tick, cfg, accI, -⟩ := s.spendInstr_tick_answers
      rw [State.instructionLoop_of_tick k ticks tick] at h
      rw [ih (cfg ▸ admitted) (by rw [cfg, accI]; linarith) h, cfg, accI]
      ring
    · rw [State.instructionLoop_of_no_tick _ ticks] at h
      cases h
      exact absurd ⟨due, going⟩ ticks

end

/-- The ticks due are the whole periods in the accumulator (R358). -/
theorem cast_dueTicks {acc p : Rat} (positive : 0 < p) (nonneg : 0 ≤ acc) : (dueTicks acc p : Rat) = ⌊acc / p⌋ := by
  have whole : ((⌊acc / p⌋.toNat : Nat) : ℤ) = ⌊acc / p⌋ :=
    Int.toNat_of_nonneg (Int.floor_nonneg.2 (div_nonneg nonneg positive.le))
  exact_mod_cast congrArg (Int.cast (R := Rat)) whole

/-- Settles O21: the loop spends the periods that its bound counts, and less than one more is left. -/
theorem instructionLoopSpendsWholePeriods : Obligations.InstructionLoopSpendsWholePeriods := by
  intro s t admitted nonneg h going
  have positive := instrPeriod_pos admitted
  have ticks := cast_dueTicks positive nonneg
  have atMost : dueTicks s.accI (instrPeriod s.cfg) * instrPeriod s.cfg ≤ s.accI := by
    rw [ticks, ← le_div_iff₀ positive]; exact Int.floor_le _
  have below : s.accI < (dueTicks s.accI (instrPeriod s.cfg) + 1) * instrPeriod s.cfg := by
    rw [ticks, ← div_lt_iff₀ positive]; exact Int.lt_floor_add_one _
  have spent := State.accI_of_instructionLoop admitted atMost h going
  refine ⟨?_, by linarith, by rw [← instrPeriod_eq]; linarith⟩
  rw [spent, ticks, instrPeriod_eq, mul_one_div, div_div_eq_mul_div, div_one]
  rfl

/-! ### The steps as the outer iteration (R356, R362) -/

/-- Some number of steps leads from `s` to `t`. -/
def Reaches (s t : State) : Prop := ∃ n, Sys2Proof.core.run n s = .next t

namespace Reaches

variable {s t u : State}

theorem refl (s : State) : Reaches s s := ⟨0, rfl⟩

theorem trans (h : Reaches s t) (h' : Reaches t u) : Reaches s u :=
  have ⟨n, hn⟩ := h
  have ⟨m, hm⟩ := h'
  ⟨n + m, (run_add m hn).trans hm⟩

theorem of_step (h : step s = .next t) : Reaches s t := ⟨1, run_succ_of_next 0 h⟩

end Reaches

/-- Inside an iteration the steps go through the instruction loop, and at its end no instruction tick is left to come. -/
theorem reaches_instructionLoop {k : Nat} {s : State} (admitted : s.cfg.wf = true) (inside : s.phase = .inside)
    (ticksDue : dueTicks s.accI (instrPeriod s.cfg) = k) :
    ∃ t, State.instructionLoop k s = .next t ∧ Reaches s t ∧ t.phase = .inside ∧
      (t.isHalted = true ∨ t.instrDue = false) := by
  have positive := instrPeriod_pos admitted
  induction k generalizing s with
  | zero =>
    exact ⟨s, rfl, .refl s, inside, .inr (s.instrDue_eq_false_iff.2 (lt_of_dueTicks_zero positive ticksDue))⟩
  | succ k ih =>
    by_cases ticks : s.instrDue = true ∧ s.isHalted = false
    · obtain ⟨due, going⟩ := ticks
      have enough : instrPeriod s.cfg ≤ s.accI := of_decide_eq_true due
      obtain ⟨u, tick, cfg, accI, phase⟩ := s.spendInstr_tick_answers
      have left : dueTicks u.accI (instrPeriod u.cfg) = k := by
        rw [cfg, accI]
        exact Nat.succ.inj ((dueTicks_spend positive enough).symm.trans ticksDue)
      obtain ⟨t, ht, reached, settled⟩ := ih (cfg ▸ admitted) (phase.trans inside) left (cfg ▸ positive)
      rw [State.instructionLoop_of_tick k ⟨due, going⟩ tick]
      exact ⟨t, ht, (Reaches.of_step ((step_of_tickComes ⟨inside, enough, going⟩).trans tick)).trans reached, settled⟩
    · refine ⟨s, State.instructionLoop_of_no_tick _ ticks, .refl s, inside, ?_⟩
      simpa [imp_iff_not_or, or_comm] using ticks

/-- After the instruction loop the steps go through the timer loop, and at its end no tick is left to come. -/
theorem reaches_timerLoop {k : Nat} {s : State} (inside : s.phase = .inside) (noInstr : s.isHalted = true ∨ s.instrDue = false)
    (ticksDue : dueTicks s.accT timerPeriod = k) :
    Reaches s (State.timerLoop k s) ∧ (State.timerLoop k s).phase = .inside ∧
      ((State.timerLoop k s).isHalted = true ∨
        (State.timerLoop k s).instrDue = false ∧ (State.timerLoop k s).timerDue = false) := by
  induction k generalizing s with
  | zero =>
    have noTimer := s.timerDue_eq_false_iff.2 (lt_of_dueTicks_zero timerPeriod_pos ticksDue)
    exact ⟨.refl s, inside, noInstr.imp_right (⟨·, noTimer⟩)⟩
  | succ k ih =>
    by_cases ticks : s.timerDue = true ∧ s.isHalted = false
    · obtain ⟨due, going⟩ := ticks
      have noInstr' : s.instrDue = false := noInstr.resolve_left (by simp [going])
      have left : dueTicks s.spendTimer.timerTick.accT timerPeriod = k :=
        Nat.succ.inj ((dueTicks_spend timerPeriod_pos (of_decide_eq_true due)).symm.trans ticksDue)
      obtain ⟨reached, settled⟩ := ih (s := s.spendTimer.timerTick) inside (.inr noInstr') left
      rw [State.timerLoop_of_tick k ⟨due, going⟩]
      exact ⟨(Reaches.of_step (step_of_timerDue inside going noInstr' due)).trans reached, settled⟩
    · have noTimer : s.isHalted = true ∨ s.timerDue = false := by simpa [imp_iff_not_or, or_comm] using ticks
      rw [State.timerLoop_of_no_tick _ ticks]
      refine ⟨.refl s, inside, ?_⟩
      rcases noInstr with halted | noInstr
      · exact .inl halted
      · exact noTimer.imp_right (⟨noInstr, ·⟩)

/-- The start of an iteration begins it or ends the run (R356, R361, R367). -/
theorem State.startIteration_phase (s : State) : s.startIteration.phase = .inside ∨ s.startIteration.phase = .ended := by
  unfold State.startIteration
  split
  · exact .inl rfl
  · exact .inr rfl

/-- Settles O26: the first step is the start of the iteration; unless it ends the run, the steps go on through the two loops, and
one more is the end of the iteration. -/
theorem stepsRefineOuterIteration : Obligations.StepsRefineOuterIteration := by
  intro s between admitted _ _
  have start := step_of_between between
  rcases s.startIteration_phase with inside | ended
  · have cfg : s.startIteration.cfg = s.cfg := by simp only [s.startIteration_keeps]
    obtain ⟨t, ht, toLoop, tInside, noInstr⟩ := reaches_instructionLoop (cfg ▸ admitted) inside rfl
    obtain ⟨toTimers, uInside, settled⟩ := reaches_timerLoop tInside noInstr rfl
    obtain ⟨n, hn⟩ := (toLoop.trans toTimers).trans (.of_step (step_of_ticks_over uInside settled))
    refine ⟨n, _, (run_succ_of_next n start).trans hn, ?_, nofun⟩
    rw [State.outerIteration, inside]
    simp only [State.runTicks, ht]
  · refine ⟨0, s.startIteration, run_succ_of_next 0 start, ?_, by simp [ended]⟩
    rw [State.outerIteration, ended]

end Sys2Proof.Machine
end

section
/-! The configuration family: the two refusals of boot, and the configuration of a run. -/

namespace Sys2Proof.Machine

/-! ### The refusals of boot (R392, R397) -/

/-- A capacity of 0 or above the ceiling is refused, whatever the ROM (R392). -/
theorem boot_of_bad_capacity {c : Config} (rom : RomInput) (inputs : List HostInput)
    (bad : c.stackCapacity = 0 ∨ stackCeiling < c.stackCapacity) :
    boot c rom inputs = .fault .stackCeilingExceeded := by
  rw [boot, if_pos bad]

/-- With an admitted capacity a ROM above the limit is refused (R397). -/
theorem boot_of_long_rom {c : Config} {rom : RomInput} (inputs : List HostInput)
    (admitted : ¬ (c.stackCapacity = 0 ∨ stackCeiling < c.stackCapacity)) (long : romMax < rom.contents.length) :
    boot c rom inputs = .fault .romTooLarge := by
  rw [boot, if_neg admitted, if_pos long]

/-- Settles O7: the ceiling is 16 and the limit of a ROM is 3584 bytes. -/
theorem bootRefusesBadConfiguration : Obligations.BootRefusesBadConfiguration := by
  intro c rom inputs
  refine ⟨boot_of_bad_capacity rom inputs, fun atLeastOne atMost16 => boot_of_long_rom inputs ?_⟩
  unfold stackCeiling
  omega

/-! ### The configuration of a run (R84, R391) -/

/-- None of the five events of a step writes the configuration. -/
theorem step_keeps_cfg {s t : State} (h : step s = .next t) : t.cfg = s.cfg := by
  rcases step_cases h with ⟨-, rfl⟩ | ⟨-, rfl⟩ | ⟨-, -, rfl⟩ | ⟨-, -, -, tick⟩ | ⟨-, -, -, -, rfl⟩
  · rfl
  · simp only [s.startIteration_keeps]
  · rfl
  · exact (State.instructionTick_keeps tick).cfg
  · rfl

/-- Settles O29: every step keeps the configuration, so a run does. -/
theorem configurationNeverChanges : Obligations.ConfigurationNeverChanges := by
  intro n s t reached
  obtain ⟨u, reached', kept⟩ := run_keeps (P := (·.cfg = s.cfg))
    (fun _ _ kept h => (step_keeps_cfg h).trans kept) n rfl
  rw [reached] at reached'
  cases reached'
  exact kept

end Sys2Proof.Machine
end
